-- ==== Sys2Proof/Word.lean ====
section
/-! DEFINITION. The two word types of the block: the byte and the nibble (spec 00_scope.md R9). -/

namespace Sys2Proof

/-- A byte: 8 bits, always read as unsigned (R9). -/
abbrev Byte := BitVec 8

/-- A nibble: 4 bits, one RLE4 pixel index (R9). -/
abbrev Nibble := BitVec 4

/-- A host-written configuration register: 32 bits, unsigned (R13, R19). -/
abbrev Word := BitVec 32

end Sys2Proof
end

