-- ==== Sys2Proof/Config.lean ====
section
/-! DEFINITION. What one instance of the hardware fixes: the two personalities and the build-time parameters
(spec 00_scope.md R5, R7). The three behavioural parameters are the points the source leaves open; every definition of
the model takes them from `Params`, so a statement about every state is a statement about all of their values. -/

namespace Sys2Proof

/-- The personality that `MODE` selects (R5, R18): RLE8 is code 1, RLE4 is code 2. -/
inductive Mode where
  /-- byte granularity, one byte per pixel -/
  | rle8
  /-- nibble granularity, two pixels per byte, high nibble first -/
  | rle4
deriving DecidableEq, Repr

/-- `ABS4_ADVANCE` (R7, R83): how RLE4 absolute mode moves through its input nibbles. -/
inductive Abs4Advance where
  /-- the read offset moves on underflow (the document's literal words; the default) -/
  | pointer
  /-- the byte pointed to is incremented on underflow, the offset stays -/
  | value
  /-- as `pointer`, with the data padded to a 16-bit boundary -/
  | aligned
deriving DecidableEq, Repr

/-- The build-time parameters of R7. -/
structure Params where
  /-- `ABS4_ADVANCE` -/
  abs4 : Abs4Advance
  /-- `BOUND_STRICT`: an extent that ends exactly at the buffer end fails (R11) -/
  boundStrict : Bool
  /-- `HALT_OUT_FULL`: fetch halts when `d = OUT_LEN` (R62) -/
  haltOutFull : Bool
  /-- `MAX_OUT`: the largest legal `OUT_LEN` -/
  maxOut : Nat
  /-- `MAX_IN`: the largest legal `IN_LEN` -/
  maxIn : Nat
deriving DecidableEq, Repr

/-- The defaults of R7: the document's literal reading, and caps of 2^31 − 1. -/
def Params.default : Params where
  abs4 := .pointer
  boundStrict := false
  haltOutFull := false
  maxOut := 2147483647
  maxIn := 2147483647

end Sys2Proof
end

