-- ==== Sys2Proof/Machine/State.lean ====
section
/-! DEFINITION. The state of the block (spec 10_state.md R13), the reasons a step can stop, what the host can ask of the
block, and the state after reset (R26, R106). -/

namespace Sys2Proof.Machine

/-- `STATUS` (R20). -/
inductive Status where
  /-- code 0: after reset; never started -/
  | idle
  /-- code 1: between START and the halt; the block steps -/
  | running
  /-- code 2: halted; `D` holds the result -/
  | done
deriving DecidableEq, Repr

/-- `CAUSE` (R21, R93). -/
inductive Cause where
  /-- code 0: not halted -/
  | none
  /-- code 1: an end-of-bitmap command retired -/
  | eob
  /-- code 2: a check on the input side failed -/
  | oobIn
  /-- code 3: a check on the output side failed -/
  | oobOut
  /-- code 4: fetch found `d = OUT_LEN` (only with `HALT_OUT_FULL`) -/
  | outFull
deriving DecidableEq, Repr

/-- `shift`, the nibble shift (R17), and the read-side shift `rs` of an RLE4 ABS (R24): exactly two values. -/
inductive Shift where
  /-- value 4: the high nibble -/
  | high
  /-- value 0: the low nibble -/
  | low
deriving DecidableEq, Repr

/-- The two address spaces (R31). -/
inductive Space where
  /-- `S`, the input memory -/
  | input
  /-- `D`, the output memory -/
  | output
deriving DecidableEq, Repr

/-- A byte memory: its cells by strictly rising offset, none of them equal to what an unlisted offset reads as
(Machine/Memory.lean: `Space.blank`, `Memory.wf`). -/
abbrev Memory := List Host.Cell

/-- The architectural state of R13, and the instance's build-time parameters, which no transition writes. -/
structure State where
  /-- the build-time parameters of R7: fixed for one instance, carried here so that a statement about every state is a
  statement about every instance (R24 does not count them as state; assumption log, entry 1) -/
  params : Params
  /-- the input cursor and program counter: a byte offset into `S` (R14) -/
  p : Nat
  /-- the output cursor: a byte offset into `D` (R15) -/
  d : Nat
  /-- the line counter: EOL commands retired since START (R16) -/
  line : Nat
  /-- the nibble shift (R17) -/
  shift : Shift
  /-- `MODE` (R18) -/
  mode : BitVec 2
  /-- `WIDTH` (R19) -/
  width : Word
  /-- `HEIGHT` (R19) -/
  height : Word
  /-- `PITCH` (R19) -/
  pitch : Word
  /-- `IN_LEN` (R19) -/
  inLen : Word
  /-- `ROWBYTES`, latched at START (R6, R13) -/
  rowBytes : Nat
  /-- `OUT_LEN`, latched at START (R6, R13) -/
  outLen : Nat
  /-- `STATUS` (R20) -/
  status : Status
  /-- `CAUSE` (R21) -/
  cause : Cause
  /-- the input memory (R22) -/
  S : Memory
  /-- the output memory (R23) -/
  D : Memory
deriving DecidableEq, Repr

/-- Why a step stops with a fault. The spec's own failures are halts, which are next states (R95); a fault is an access
that the spec says no rule ever makes, or one whose value the spec does not give. -/
inductive Fault where
  /-- an access to `S` at an offset `≥ IN_LEN`, which does not exist (R22). Raised by `State.readInput` and
  `State.writeInput`. Safe; by R98 no step raises it. -/
  | inputOutside
  /-- an access to `D` at an offset `≥ OUT_LEN`, which does not exist (R23). Raised by `State.readOutput` and
  `State.writeOutput`. Safe; by R98 no step raises it. -/
  | outputOutside
  /-- a read of a cell of `S` below `IN_LEN` that the host has not loaded: "reading one is a fault of the model's host" (R26,
  R108). Raised by `State.readInput`. Safe. -/
  | inputUnloaded
deriving DecidableEq, Repr

/-- Why there is no move. -/
inductive Refusal where
  /-- an instruction without a meaning yet; raised by a refused arm of `exec`. Safe. -/
  | notModelled (mnemonic : String)
  /-- a step of a block that is not running: it "has no enabled move until the next START" (R65, R106). Raised by `step`.
  Safe. -/
  | notRunning
  /-- a step with `MODE` 0 or 3, a configuration START refuses (R8, R61), so that no run has it. Raised by `step`. Safe. -/
  | illegalMode
  /-- START while `RUNNING` (R61). Raised by `hostExec`. Safe. -/
  | startWhileRunning
  /-- START with an illegal configuration (R8, R61). Raised by `hostExec`. Safe. -/
  | startIllegal
  /-- a host access to `S`, `D` or a register, other than reading `STATUS`, while `RUNNING` (R43). Raised by `hostExec` and
  `hostRead`. Safe. -/
  | hostWhileRunning
  /-- a host read of `CAUSE`, a working register or `D` before the first `DONE`, which R30 gives no meaning. Raised by
  `hostRead`. Safe. -/
  | notDone
  /-- a host write to `S` at an offset `≥ MAX_IN`, which no legal `IN_LEN` makes a cell (R8, R22). Raised by `hostExec`. Safe. -/
  | hostOffset
  /-- a host read of a cell that does not exist or holds no value (R22, R23, R26). Raised by `hostRead`. Safe. -/
  | noSuchCell
deriving DecidableEq, Repr

/-- What the host can do to the block (R61, R106, R112): reset it, write the configuration, load a cell of `S`, start it. -/
inductive HostCmd where
  | reset
  | writeMode (v : BitVec 2)
  | writeWidth (v : Word)
  | writeHeight (v : Word)
  | writePitch (v : Word)
  | writeInLen (v : Word)
  | writeInput (a : Nat) (b : Byte)
  | start
deriving DecidableEq, Repr

/-- What the host can read (R30, R43). -/
inductive HostQuery where
  | status
  | cause
  | p
  | d
  | line
  | shift
  | output (a : Nat)
  | mode
  | width
  | height
  | pitch
  | inLen
  | input (a : Nat)
deriving DecidableEq, Repr

/-- The state after reset of an instance with the given build-time parameters. R26 and R106 give `STATUS = IDLE` and
`CAUSE = NONE` and nothing else; every other value is the model's (assumption log, entry 2). -/
def State.resetOf (c : Params) : State where
  params := c
  p := 0
  d := 0
  line := 0
  shift := .high
  mode := 0
  width := 0
  height := 0
  pitch := 0
  inLen := 0
  rowBytes := 0
  outLen := 0
  status := .idle
  cause := .none
  S := []
  D := []

/-- The machine right after reset, for the instance with the default build-time parameters (R7). -/
def State.reset : State := State.resetOf Params.default

end Sys2Proof.Machine
end

