-- ==== Sys2Proof/Machine/Memory.lean ====
section
/-! DEFINITION. The two byte memories in their one canonical form (spec 20_memory.md R31): reading and writing one cell.
No access is wider than one byte (R32) and none has an alignment requirement (R33). -/

namespace Sys2Proof.Machine

/-- What an offset that a memory does not list reads as. `S`: nothing, since R26 gives a cell the host has not written no
value (assumption log, entry 3). `D`: zero, START's fill (R23, R61). -/
def Space.blank : Space → Option Byte
  | .input => none
  | .output => some 0

/-- The byte listed at an offset. -/
def Memory.find : Memory → Nat → Option Byte
  | [], _ => none
  | (k, v) :: m, a => if k = a then some v else Memory.find m a

/-- Lists a byte at an offset, in place of the one listed there, keeping the offsets rising. -/
def Memory.put : Memory → Nat → Byte → Memory
  | [], a, b => [(a, b)]
  | (k, v) :: m, a, b =>
    if a < k then (a, b) :: (k, v) :: m
    else if a = k then (a, b) :: m
    else (k, v) :: Memory.put m a b

/-- Unlists an offset. -/
def Memory.del : Memory → Nat → Memory
  | [], _ => []
  | (k, v) :: m, a => if k = a then Memory.del m a else (k, v) :: Memory.del m a

/-- What the cell of the space `sp` at offset `a` holds, if it holds a value. -/
def Memory.read (sp : Space) (m : Memory) (a : Nat) : Option Byte :=
  match Memory.find m a with
  | some b => some b
  | none => sp.blank

/-- `MemWrite(·, a, 1, b)` (R10), keeping the canonical form. -/
def Memory.write (sp : Space) (m : Memory) (a : Nat) (b : Byte) : Memory :=
  if sp.blank = some b then Memory.del m a else Memory.put m a b

/-- The canonical form: offsets strictly rising, and no listed byte that the offset would read as unlisted. -/
abbrev Memory.wf (sp : Space) (m : Memory) : Prop :=
  (m.map Prod.fst).Pairwise (· < ·) ∧ ∀ c ∈ m, sp.blank ≠ some c.2

/-- Writes consecutive bytes from an offset on. The cells are put from the last to the first. -/
def Memory.load (sp : Space) (m : Memory) (a : Nat) : List Byte → Memory
  | [] => m
  | b :: bs => Memory.write sp (Memory.load sp m (a + 1) bs) a b

end Sys2Proof.Machine
end

