-- ==== Sys2Proof/Syntax.lean ====
section
/-! DEFINITION. The instructions: the ten commands of spec/opcode_table.json, one constructor a row.
A constructor holds what the command's two-byte head holds (R47, R52). What follows the head (the `dx`, `dy` of DELTA,
the data and padding of ABS) is read from the input memory by the command's own rule, under that rule's own checks
(R52, R76, R77, R87, R88), and so is part of the meaning and of `Command` (Decode.lean), not of the head. -/

namespace Sys2Proof

/-- One RLE command, as its head selects it (R46, R52). -/
inductive Instr where
  /-- RLE8 `RUN count, v` (R48, R73) -/
  | rle8Run (count v : Byte)
  /-- RLE8 `EOL` (R49, R74) -/
  | rle8Eol
  /-- RLE8 `EOB` (R49, R75) -/
  | rle8Eob
  /-- RLE8 `DELTA`; `dx` and `dy` are the two bytes after the head (R50, R76) -/
  | rle8Delta
  /-- RLE8 `ABS n`; the data follows the head (R51, R77) -/
  | rle8Abs (n : Byte)
  /-- RLE4 `RUN count, v` (R48, R84) -/
  | rle4Run (count v : Byte)
  /-- RLE4 `EOL` (R49, R85) -/
  | rle4Eol
  /-- RLE4 `EOB` (R49, R86) -/
  | rle4Eob
  /-- RLE4 `DELTA`; `dx` and `dy` are the two bytes after the head (R50, R87) -/
  | rle4Delta
  /-- RLE4 `ABS n`; the data follows the head (R51, R88) -/
  | rle4Abs (n : Byte)
deriving DecidableEq, Repr

/-- The personality an instruction belongs to (R46). -/
def Instr.mode : Instr → Mode
  | .rle8Run _ _ => .rle8
  | .rle8Eol => .rle8
  | .rle8Eob => .rle8
  | .rle8Delta => .rle8
  | .rle8Abs _ => .rle8
  | .rle4Run _ _ => .rle4
  | .rle4Eol => .rle4
  | .rle4Eob => .rle4
  | .rle4Delta => .rle4
  | .rle4Abs _ => .rle4

end Sys2Proof
end

