-- ==== Sys2Proof/WellFormed.lean ====
section
/-! DEFINITION. Which instruction terms are commands of the stream (spec 30_encoding.md R48, R51, R54): a run's count is
1..255 (0 selects the escapes) and an absolute run's `n` is 3..255 (0, 1 and 2 are the other escapes). -/

namespace Sys2Proof

/-- R48: "run length in pixels, unsigned, 1..255 (0 is not a run: it selects the escapes)". -/
def runCountOk (count : Byte) : Bool := decide (count ≠ 0)

/-- R51: `n` is "unsigned 3..255". -/
def absCountOk (n : Byte) : Bool := decide (3 ≤ n.toNat)

/-- The operands of an instruction are ones its encoding can hold. -/
def Instr.wf : Instr → Bool
  | .rle8Run count _ => runCountOk count
  | .rle8Eol => true
  | .rle8Eob => true
  | .rle8Delta => true
  | .rle8Abs n => absCountOk n
  | .rle4Run count _ => runCountOk count
  | .rle4Eol => true
  | .rle4Eob => true
  | .rle4Delta => true
  | .rle4Abs n => absCountOk n

end Sys2Proof
end

