-- ==== Sys2Proof/Decode.lean ====
section
/-! DEFINITION. Decoding and encoding (spec 30_encoding.md): heads, command lengths, whole commands with what follows
the head, the assembler syntax of R57, and the opcode table's numbering of bits. -/

namespace Sys2Proof

/-- R9: `ceil2(n) = (n + 1) / 2`. -/
def ceil2 (n : Nat) : Nat := (n + 1) / 2

/-! ### The personality -/

/-- The code of a personality in `MODE` (R5): 1 = RLE8, 2 = RLE4. -/
def Mode.code : Mode → BitVec 2
  | .rle8 => 1
  | .rle4 => 2

/-- The personality a value of `MODE` selects; 0 and 3 are illegal configurations and select none (R18). -/
def Mode.ofCode (c : BitVec 2) : Option Mode :=
  if c = 1 then some .rle8 else if c = 2 then some .rle4 else none

/-! ### Heads -/

/-- The decode algorithm of R52 on the two head bytes. It is total: there are no reserved or illegal heads (R54). -/
def decodeHead (m : Mode) (b0 b1 : Byte) : Instr :=
  match m with
  | .rle8 =>
    if b0 ≠ 0 then .rle8Run b0 b1
    else if b1 = 0 then .rle8Eol
    else if b1 = 1 then .rle8Eob
    else if b1 = 2 then .rle8Delta
    else .rle8Abs b1
  | .rle4 =>
    if b0 ≠ 0 then .rle4Run b0 b1
    else if b1 = 0 then .rle4Eol
    else if b1 = 1 then .rle4Eob
    else if b1 = 2 then .rle4Delta
    else .rle4Abs b1

/-- Why the decoder gives no instruction for a list of bytes. -/
inductive Reject where
  /-- fewer than the two bytes of a head are there (R62: "head cut in two") -/
  | headCut
  /-- the bytes that follow the head are not all there -/
  | tailCut
  /-- `MODE` is 0 or 3, which selects no personality (R18) -/
  | illegalMode
deriving DecidableEq, Repr

/-- The instruction at the front of a list of bytes under a value of `MODE`: total, rejecting by name. -/
def decode (mode : BitVec 2) (bytes : List Byte) : Except Reject Instr :=
  match Mode.ofCode mode with
  | none => .error .illegalMode
  | some m =>
    match bytes with
    | b0 :: b1 :: _ => .ok (decodeHead m b0 b1)
    | _ => .error .headCut

/-- The two head bytes of an instruction (R47 to R51). -/
def encode : Instr → List Byte
  | .rle8Run count v => [count, v]
  | .rle8Eol => [0, 0]
  | .rle8Eob => [0, 1]
  | .rle8Delta => [0, 2]
  | .rle8Abs n => [0, n]
  | .rle4Run count v => [count, v]
  | .rle4Eol => [0, 0]
  | .rle4Eob => [0, 1]
  | .rle4Delta => [0, 2]
  | .rle4Abs n => [0, n]

/-! ### Lengths -/

/-- R51: how many bytes an RLE4 `ABS n` consumes after its head, by `ABS4_ADVANCE`. -/
def abs4Consumed (adv : Abs4Advance) (n : Nat) : Nat :=
  match adv with
  | .pointer => n / 2 + n % 2
  | .value => n % 2
  | .aligned => ceil2 n + ceil2 n % 2

/-- How many bytes a command consumes after its head (R51, R55). -/
def tailLength (adv : Abs4Advance) : Instr → Nat
  | .rle8Run _ _ => 0
  | .rle8Eol => 0
  | .rle8Eob => 0
  | .rle8Delta => 2
  | .rle8Abs n => n.toNat + n.toNat % 2
  | .rle4Run _ _ => 0
  | .rle4Eol => 0
  | .rle4Eob => 0
  | .rle4Delta => 2
  | .rle4Abs n => abs4Consumed adv n.toNat

/-- `len` of R55: the command's length in bytes, and so what it adds to `p` when it retires. -/
def commandLength (adv : Abs4Advance) (i : Instr) : Nat := 2 + tailLength adv i

/-! ### Whole commands and streams (R55, R56) -/

/-- A command of the stream: its head, and every byte it consumes after the head (DELTA's `dx` and `dy`; the data and
the padding of ABS). -/
structure Command where
  head : Instr
  tail : List Byte
deriving DecidableEq, Repr

/-- A command of the personality `m`: its head is well formed and it has the bytes its length says. -/
def Command.wf (adv : Abs4Advance) (m : Mode) (c : Command) : Bool :=
  c.head.wf && decide (c.head.mode = m) && decide (c.tail.length = tailLength adv c.head)

/-- The bytes of a command, head first (R47). -/
def Command.bytes (c : Command) : List Byte := encode c.head ++ c.tail

/-- The command at the front of a list of bytes, and the bytes after it: the head first, then as many bytes as the
head says (R55). -/
def decodeCommand (adv : Abs4Advance) (m : Mode) (bytes : List Byte) : Except Reject (Command × List Byte) :=
  match bytes with
  | b0 :: b1 :: rest =>
    let i := decodeHead m b0 b1
    let n := tailLength adv i
    if n ≤ rest.length then .ok (⟨i, rest.take n⟩, rest.drop n) else .error .tailCut
  | _ => .error .headCut

/-- The commands of a stream, "each command starts where the previous one ended" (R56). The fuel bounds the number of
commands; the stream's length is always enough, since a command has two bytes at least. -/
def decodeCommands (adv : Abs4Advance) (m : Mode) : Nat → List Byte → Except Reject (List Command)
  | _, [] => .ok []
  | 0, _ :: _ => .error .headCut
  | k + 1, b :: bs =>
    match decodeCommand adv m (b :: bs) with
    | .error r => .error r
    | .ok (c, rest) =>
      match decodeCommands adv m k rest with
      | .error r => .error r
      | .ok cs => .ok (c :: cs)

/-- The commands a whole stream holds. -/
def decodeStream (adv : Abs4Advance) (m : Mode) (bytes : List Byte) : Except Reject (List Command) :=
  decodeCommands adv m bytes.length bytes

/-- The stream that holds the given commands, one after the other (R56). -/
def encodeStream (cs : List Command) : List Byte := cs.flatMap Command.bytes

/-! ### The assembler syntax of R57 -/

/-- One line of a listing (R57). -/
inductive AsmLine where
  /-- `RUN count, v` -/
  | run (count v : Byte)
  /-- `EOL` -/
  | eol
  /-- `EOB` -/
  | eob
  /-- `DELTA dx, dy` -/
  | delta (dx dy : Byte)
  /-- `ABS n : b b b ...` -/
  | abs (n : Byte) (data : List Byte)
  /-- `PAD`: one padding byte, part of the preceding ABS -/
  | pad
  /-- `.byte b`: a raw byte, for malformed streams -/
  | raw (b : Byte)
deriving DecidableEq, Repr

/-- The bytes a line stands for (R57). -/
def AsmLine.bytes : AsmLine → List Byte
  | .run count v => [count, v]
  | .eol => [0, 0]
  | .eob => [0, 1]
  | .delta dx dy => [0, 2, dx, dy]
  | .abs n data => 0 :: n :: data
  | .pad => [0]
  | .raw b => [b]

/-- A listing: `.mode`, `.geom WIDTH HEIGHT PITCH`, and its lines (R57). -/
structure Listing where
  mode : Mode
  width : Word
  height : Word
  pitch : Word
  lines : List AsmLine
deriving DecidableEq, Repr

/-- The stream of a listing; `IN_LEN` is its number of bytes (R57). -/
def Listing.bytes (l : Listing) : List Byte := l.lines.flatMap AsmLine.bytes

/-! ### The opcode table's numbering of bits -/

/-- Byte `k` of the instruction whose bits are `w`. The table writes a head as one 16-bit number with the first byte in
bits 15..8 (R47), so a word is 16 bits, its high byte stored first; a later word's bits count on from it. -/
def tableByte (w k : Nat) : Byte :=
  BitVec.ofNat 8 (w >>> (16 * (k / 2) + (if k % 2 = 0 then 8 else 0)))

/-- `n` bytes, from byte `k` on, of the instruction whose bits are `w`. -/
def tableBytesFrom (w : Nat) : Nat → Nat → List Byte
  | 0, _ => []
  | n + 1, k => tableByte w k :: tableBytesFrom w n (k + 1)

/-- The first `n` bytes of the instruction whose lowest `nbits` bits are those of `w` and whose other bits are 0. -/
def tableBytes (nbits w n : Nat) : List Byte := tableBytesFrom (w % 2 ^ nbits) n 0

/-- The instruction that the decoder reads from a table word under the personality `m`. -/
def decodeTableWordAs (m : Mode) (nbits w : Nat) : Option Instr :=
  match decode m.code (tableBytes nbits w 4) with
  | .ok i => some i
  | .error _ => none

/-- The instruction the decoder reads from a table word. A table word does not say its personality (each RLE4 row has the
bits of an RLE8 row; `MODE` decides, R46, R52): the word is read as RLE8, and `decodeTableWordAs` takes the personality as an
argument (assumption log, entry 13). -/
def decodeTableWord (nbits w : Nat) : Option Instr := decodeTableWordAs .rle8 nbits w

end Sys2Proof
end

