-- ==== Sys2Proof/Machine/Flags.lean ====
section
/-! DEFINITION. The flag-like state (spec 10_state.md R28): the codes of `shift`, `STATUS` and `CAUSE`, and how a nibble
position moves. There are no condition codes. -/

namespace Sys2Proof.Machine

/-- The value of `shift` as the spec numbers it (R17): 4 or 0. -/
def Shift.code : Shift → Nat
  | .high => 4
  | .low => 0

/-- The code of `STATUS` (R20). -/
def Status.code : Status → Nat
  | .idle => 0
  | .running => 1
  | .done => 2

/-- The code of `CAUSE` (R21). -/
def Cause.code : Cause → Nat
  | .none => 0
  | .eob => 1
  | .oobIn => 2
  | .oobOut => 3
  | .outFull => 4

/-- R80, R82: a shift drops by 4, and when that is below 0 it is set back to 4. -/
def Shift.drop : Shift → Shift
  | .high => .low
  | .low => .high

/-- R87: the shift DELTA sets, from the parity of `dx`: even 4, odd 0. -/
def Shift.ofParity (dx : Nat) : Shift := if dx % 2 = 0 then .high else .low

/-- R12: the nibble address of a write position, `2*d + (0 if shift = 4 else 1)`. -/
def npos (d : Nat) : Shift → Nat
  | .high => 2 * d
  | .low => 2 * d + 1

/-- R79: how many bytes of `D`, from `D[d]` on, writing `k` pixels from `(d, shift)` touches. -/
def touched (d : Nat) (shift : Shift) (k : Nat) : Nat := ceil2 (npos d shift + k) - d

end Sys2Proof.Machine
end

