-- ==== Sys2Proof/Machine/Operands.lean ====
section
/-! DEFINITION. The operand forms (spec 30_encoding.md R53): a byte as an unsigned number needs none; here are the nibbles
of a byte (R12), and the derived constants and lengths that the commands use (R6, R83). -/

namespace Sys2Proof.Machine

/-- R12: `nib(b, s) = (b >> s) & 0xF`. -/
def nib (b : Byte) (s : Shift) : Nibble := (b >>> s.code).setWidth 4

/-- R12: `putnib(old, s, v) = (old & ~(0xF << s) & 0xFF) | ((v & 0xF) << s)`: the other nibble is kept. -/
def putnib (old : Byte) (s : Shift) (v : Nibble) : Byte :=
  (old &&& ~~~((0x0F : Byte) <<< s.code)) ||| ((v.setWidth 8) <<< s.code)

/-- R6: `ROWBYTES` of a personality. -/
def rowBytesOf (m : Mode) (width pitch : Nat) : Nat :=
  match m with
  | .rle8 => width + pitch
  | .rle4 => (width + 1) / 2 + pitch

/-- R87: the bytes that DELTA's horizontal offset moves `d` by: in RLE8 `dx`, in RLE4 `dx / 2` (R76, R87). -/
def deltaBytes (m : Mode) (dx : Nat) : Nat :=
  match m with
  | .rle8 => dx
  | .rle4 => dx / 2

/-- R88: where `p` stands after the read loop of an RLE4 ABS that started at `p0` and whose read offset ended at `q`. -/
def abs4End (adv : Abs4Advance) (p0 q n : Nat) : Nat :=
  match adv with
  | .pointer => q
  | .value => q
  | .aligned => p0 + 2 + ceil2 n

/-- R88: how many padding bytes follow an RLE4 ABS. -/
def abs4Pad (adv : Abs4Advance) (n : Nat) : Nat :=
  match adv with
  | .pointer => n % 2
  | .value => n % 2
  | .aligned => ceil2 n % 2

end Sys2Proof.Machine
end

