-- ==== Sys2Proof/Machine/Ops.lean ====
section
/-! DEFINITION. The named operations over registers and memories: the bounds predicates (spec 00_scope.md R11), one-byte
accesses (R10), the halt, which is this hardware's one exception (60_exceptions.md R95), retiring, and the pixel loops of
RUN and ABS. There is no return from a halt (R97). -/

namespace Sys2Proof.Machine

/-- What executing an instruction answers. -/
abbrev Result := Host.Outcome State Fault Refusal

/-! ### Bounds (R11) -/

/-- `canRead(a, n)`: the `n` bytes of `S` from `a` on may be read. -/
def State.canRead (s : State) (a n : Nat) : Bool :=
  if s.params.boundStrict then decide (a + n < s.inLen.toNat) else decide (a + n ≤ s.inLen.toNat)

/-- `canWrite(a, n)`: the `n` bytes of `D` from `a` on may be written. -/
def State.canWrite (s : State) (a n : Nat) : Bool :=
  if s.params.boundStrict then decide (a + n < s.outLen) else decide (a + n ≤ s.outLen)

/-- `canMove(a)`: `d` may be set to `a`. -/
def State.canMove (s : State) (a : Nat) : Bool := decide (a ≤ s.outLen)

/-! ### One-byte accesses (R10, R22, R23) -/

/-- The byte of `D` at an offset. -/
def State.outByte (s : State) (a : Nat) : Byte := (Memory.read .output s.D a).getD 0

/-- The nibble of `D` at a nibble address: the high nibble of byte `N / 2` when `N` is even (R25). -/
def State.outNibble (s : State) (N : Nat) : Nibble := nib (s.outByte (N / 2)) (Shift.ofParity N)

/-- The byte of `S` at an offset, if the host has loaded it. -/
def State.inByte (s : State) (a : Nat) : Option Byte := Memory.read .input s.S a

/-- `MemRead(S, a, 1)`: "defined only for `a < IN_LEN`" (R10). -/
def State.readInput (s : State) (a : Nat) : Except Fault Byte :=
  if a < s.inLen.toNat then
    match s.inByte a with
    | some b => .ok b
    | none => .error .inputUnloaded
  else .error .inputOutside

/-- `MemWrite(S, a, 1, b)`; "used only when `ABS4_ADVANCE = value`" (R10). -/
def State.writeInput (s : State) (a : Nat) (b : Byte) : Except Fault State :=
  if a < s.inLen.toNat then .ok { s with S := Memory.write .input s.S a b } else .error .inputOutside

/-- `MemRead(D, a, 1)`; "used only by the RLE4 nibble write" (R10). -/
def State.readOutput (s : State) (a : Nat) : Except Fault Byte :=
  if a < s.outLen then .ok (s.outByte a) else .error .outputOutside

/-- `MemWrite(D, a, 1, b)`, at an offset `a < OUT_LEN` (R10). -/
def State.writeOutput (s : State) (a : Nat) (b : Byte) : Except Fault State :=
  if a < s.outLen then .ok { s with D := Memory.write .output s.D a b } else .error .outputOutside

/-! ### The end of a step -/

/-- `raise Halt(c)`: `STATUS <- DONE`, `CAUSE <- c`, and nothing else changes (R10, R95). `s` is the state at the beginning of
the step, or the committed state of the two halts after a copy. -/
def State.halt (c : Cause) (s : State) : State := { s with status := .done, cause := c }

/-- `retire(n)`: `p <- p + n` (R10). -/
def State.retire (n : Nat) (s : State) : State := { s with p := s.p + n }

/-- The end of a step in which an access may have failed. -/
def finish (r : Except Fault State) (k : State → Result) : Result :=
  match r with
  | .ok s => k s
  | .error f => .fault f

/-- The end of an ABS after its copy (R77, R88): `p` is set to the end of the data, which commits the copy; then the padding
bytes must be there, and are skipped unread. -/
def State.skipPadding (s : State) (p pad : Nat) : Result :=
  let t := { s with p := p }
  if t.canRead p pad then .next (t.retire pad) else .next (t.halt .oobIn)

/-! ### Cursor moves without a write (R74, R76, R85, R87) -/

/-- The row start an EOL moves to: `(line + 1) * ROWBYTES`; it depends on `line` only (R74). -/
def State.eolTarget (s : State) : Nat := (s.line + 1) * s.rowBytes

/-- EOL (R74, R85): checks the target, moves `d`, counts the line, sets the shift to `sh`, retires. -/
def State.endOfLine (s : State) (sh : Shift) : Result :=
  if s.canMove s.eolTarget then
    .next (({ s with d := s.eolTarget, line := s.line + 1, shift := sh } : State).retire 2)
  else .next (s.halt .oobOut)

/-- EOB: retires and halts together (R75, R86). -/
def State.endOfBitmap (s : State) : Result := .next ((s.retire 2).halt .eob)

/-- The byte offset a DELTA moves `d` to (R76, R87). -/
def State.deltaTarget (s : State) (m : Mode) (dx dy : Byte) : Nat :=
  s.d + deltaBytes m dx.toNat + dy.toNat * s.rowBytes

/-- The two operand bytes of a DELTA: `dx = S[p+2]`, `dy = S[p+3]` (R50, R76, R87). -/
def State.deltaOperands (s : State) : Except Fault (Byte × Byte) :=
  match s.readInput (s.p + 2) with
  | .error f => .error f
  | .ok dx =>
    match s.readInput (s.p + 3) with
    | .error f => .error f
    | .ok dy => .ok (dx, dy)

/-- DELTA (R76, R87): checks and reads the operands, checks the target, moves `d`, sets the shift to `sh dx`, retires. -/
def State.delta (s : State) (m : Mode) (sh : Byte → Shift) : Result :=
  if s.canRead (s.p + 2) 2 then
    match s.deltaOperands with
    | .error f => .fault f
    | .ok (dx, dy) =>
      if s.canMove (s.deltaTarget m dx dy) then
        .next (({ s with d := s.deltaTarget m dx dy, shift := sh dx } : State).retire 4)
      else .next (s.halt .oobOut)
  else .next (s.halt .oobIn)

/-! ### The RLE8 pixel loops (R73, R77) -/

/-- Writes the byte `v` at `k` consecutive offsets of `D` from `a` on. -/
def State.fillBytes (s : State) (a : Nat) (v : Byte) : Nat → Except Fault State
  | 0 => .ok s
  | k + 1 =>
    match s.fillBytes a v k with
    | .error f => .error f
    | .ok t => t.writeOutput (a + k) v

/-- Copies `k` consecutive bytes from `S` at `q` to `D` at `a`. -/
def State.copyBytes (s : State) (q a : Nat) : Nat → Except Fault State
  | 0 => .ok s
  | k + 1 =>
    match s.copyBytes q a k with
    | .error f => .error f
    | .ok t =>
      match t.readInput (q + k) with
      | .error f => .error f
      | .ok b => t.writeOutput (a + k) b

/-! ### The RLE4 pixel loops (R80, R82, R83) -/

/-- `emit(c)` (R80): the nibble write at `(d, shift)`, a read-modify-write, and one nibble's step of the position. -/
def State.emit (s : State) (c : Nibble) : Except Fault State :=
  match s.readOutput s.d with
  | .error f => .error f
  | .ok old =>
    match s.writeOutput s.d (putnib old s.shift c) with
    | .error f => .error f
    | .ok t =>
      match s.shift with
      | .high => .ok { t with shift := .low }
      | .low => .ok { t with shift := .high, d := s.d + 1 }

/-- `k` pixels of an RLE4 RUN (R84): each takes the nibble of `v` that its output position selects. -/
def State.emitRun (s : State) (v : Byte) : Nat → Except Fault State
  | 0 => .ok s
  | k + 1 =>
    match s.emitRun v k with
    | .error f => .error f
    | .ok t => t.emit (nib v t.shift)

/-- The read side of an RLE4 ABS: the offset `q`, the shift `rs`, and the state (R24, R82). -/
structure AbsRead where
  state : State
  q : Nat
  rs : Shift
deriving DecidableEq, Repr

/-- What the read side does when its shift has taken the nibble of `b` at `q` (R83): on underflow, under `value` the byte at
`q` is incremented, otherwise `q` moves. -/
def AbsRead.advance (r : AbsRead) (b : Byte) : Except Fault AbsRead :=
  match r.rs with
  | .high => .ok { r with rs := .low }
  | .low =>
    match r.state.params.abs4 with
    | .value =>
      match r.state.writeInput r.q (b + 1) with
      | .error f => .error f
      | .ok t => .ok { state := t, q := r.q, rs := .high }
    | .pointer => .ok { r with q := r.q + 1, rs := .high }
    | .aligned => .ok { r with q := r.q + 1, rs := .high }

/-- One pixel of an RLE4 ABS (R88): read a nibble, advance the read side, emit. -/
def AbsRead.pixel (r : AbsRead) : Except Fault AbsRead :=
  match r.state.readInput r.q with
  | .error f => .error f
  | .ok b =>
    match r.advance b with
    | .error f => .error f
    | .ok r' =>
      match r'.state.emit (nib b r.rs) with
      | .error f => .error f
      | .ok t => .ok { r' with state := t }

/-- `k` pixels of an RLE4 ABS. -/
def AbsRead.pixels (r : AbsRead) : Nat → Except Fault AbsRead
  | 0 => .ok r
  | k + 1 =>
    match r.pixels k with
    | .error f => .error f
    | .ok t => t.pixel

end Sys2Proof.Machine
end

