-- ==== Sys2Proof/Machine/Rle4.lean ====
section
/-! DEFINITION. The meanings of the five RLE4 commands (spec 42_rle4.md R84 to R88). -/

namespace Sys2Proof.Machine

/-- R84: RLE4 `RUN count, v`. -/
def execRle4Run (count v : Byte) (s : State) : Result :=
  if s.canWrite s.d (touched s.d s.shift count.toNat) then
    finish (s.emitRun v count.toNat) fun t => .next (t.retire 2)
  else .next (s.halt .oobOut)

/-- R85: RLE4 `EOL`. `shift` is set to 4; on a halt it is unchanged. -/
def execRle4Eol (s : State) : Result := s.endOfLine .high

/-- R86: RLE4 `EOB`. -/
def execRle4Eob (s : State) : Result := s.endOfBitmap

/-- R87: RLE4 `DELTA dx, dy`. `shift` is set from `dx` alone. -/
def execRle4Delta (s : State) : Result := s.delta .rle4 fun dx => Shift.ofParity dx.toNat

/-- R88: RLE4 `ABS n`. The data check is for `ceil2(n)` bytes under every `ABS4_ADVANCE`. -/
def execRle4Abs (n : Byte) (s : State) : Result :=
  if s.canRead (s.p + 2) (ceil2 n.toNat) then
    if s.canWrite s.d (touched s.d s.shift n.toNat) then
      match AbsRead.pixels ⟨s, s.p + 2, .high⟩ n.toNat with
      | .error f => .fault f
      | .ok r =>
        r.state.skipPadding (abs4End s.params.abs4 s.p r.q n.toNat) (abs4Pad s.params.abs4 n.toNat)
    else .next (s.halt .oobOut)
  else .next (s.halt .oobIn)

end Sys2Proof.Machine
end

