-- ==== Sys2Proof/Machine/Rle8.lean ====
section
/-! DEFINITION. The meanings of the five RLE8 commands (spec 41_rle8.md R73 to R77). Each continues the step after the head
has been fetched and decoded; `s.p` is the offset of the command's first byte. -/

namespace Sys2Proof.Machine

/-- R73: RLE8 `RUN count, v`. -/
def execRle8Run (count v : Byte) (s : State) : Result :=
  if s.canWrite s.d count.toNat then
    finish (s.fillBytes s.d v count.toNat) fun t =>
      .next (({ t with d := s.d + count.toNat } : State).retire 2)
  else .next (s.halt .oobOut)

/-- R74: RLE8 `EOL`. `shift` keeps its value. -/
def execRle8Eol (s : State) : Result := s.endOfLine s.shift

/-- R75: RLE8 `EOB`. -/
def execRle8Eob (s : State) : Result := s.endOfBitmap

/-- R76: RLE8 `DELTA dx, dy`. `shift` keeps its value. -/
def execRle8Delta (s : State) : Result := s.delta .rle8 fun _ => s.shift

/-- R77: RLE8 `ABS n`. The data bytes are checked first, then the output, then, after the copy, the padding byte. -/
def execRle8Abs (n : Byte) (s : State) : Result :=
  if s.canRead (s.p + 2) n.toNat then
    if s.canWrite s.d n.toNat then
      finish (s.copyBytes (s.p + 2) s.d n.toNat) fun t =>
        ({ t with d := s.d + n.toNat } : State).skipPadding (s.p + 2 + n.toNat) (n.toNat % 2)
    else .next (s.halt .oobOut)
  else .next (s.halt .oobIn)

end Sys2Proof.Machine
end

