-- ==== Sys2Proof/Machine/Dispatch.lean ====
section
/-! DEFINITION. Dispatch (spec 40_sequencer.md R63): one arm per constructor, each one call of its meaning. -/

namespace Sys2Proof.Machine

def exec (i : Instr) (s : State) : Host.Outcome State Fault Refusal :=
  match i with
  | .rle8Run count v => Sys2Proof.Machine.execRle8Run count v s
  | .rle8Eol => Sys2Proof.Machine.execRle8Eol s
  | .rle8Eob => Sys2Proof.Machine.execRle8Eob s
  | .rle8Delta => Sys2Proof.Machine.execRle8Delta s
  | .rle8Abs n => Sys2Proof.Machine.execRle8Abs n s
  | .rle4Run count v => Sys2Proof.Machine.execRle4Run count v s
  | .rle4Eol => Sys2Proof.Machine.execRle4Eol s
  | .rle4Eob => Sys2Proof.Machine.execRle4Eob s
  | .rle4Delta => Sys2Proof.Machine.execRle4Delta s
  | .rle4Abs n => Sys2Proof.Machine.execRle4Abs n s

end Sys2Proof.Machine
end

