-- ==== Sys2Proof/Machine/Fetch.lean ====
section
/-! DEFINITION. The fetch of a command's head (spec 40_sequencer.md R62), and placing an instruction where the next fetch
finds it. -/

namespace Sys2Proof.Machine

/-- What fetch ends in: a halt, an access without a value, or the two head bytes. -/
inductive Fetched where
  /-- a test of R62 failed -/
  | halted (c : Cause)
  /-- a byte of the head has not been loaded -/
  | stopped (f : Fault)
  /-- the head -/
  | head (b0 b1 : Byte)
deriving DecidableEq, Repr

/-- R62, test by test: the stream is not used up, the output is not full (when `HALT_OUT_FULL`), the second byte is there. -/
def State.fetch (s : State) : Fetched :=
  if ¬ s.p < s.inLen.toNat then .halted .oobIn
  else if s.params.haltOutFull ∧ ¬ s.d < s.outLen then .halted .outFull
  else
    match s.readInput s.p with
    | .error f => .stopped f
    | .ok b0 =>
      if s.canRead (s.p + 1) 1 then
        match s.readInput (s.p + 1) with
        | .error f => .stopped f
        | .ok b1 => .head b0 b1
      else .halted .oobIn

/-- How many bytes `placeInstr` stores: the longest instruction (RLE8 `ABS 255`, 258 bytes, R51), and two more so that
`BOUND_STRICT` cuts off none of it. -/
def placeLength : Nat := 260

/-- The running block that a host load and START leave, with a picture of 256 rows of 256 bytes; a block that runs already
stays as it is (assumption log, entry 12). -/
def State.asRunning (s : State) : State :=
  match s.status with
  | .running => s
  | _ =>
    { s with
      p := 0, d := 0, line := 0, shift := .high
      mode := if (Mode.ofCode s.mode).isSome then s.mode else Mode.rle8.code
      width := 256, height := 256, pitch := 0
      rowBytes := rowBytesOf ((Mode.ofCode s.mode).getD .rle8) 256 0
      outLen := rowBytesOf ((Mode.ofCode s.mode).getD .rle8) 256 0 * 256
      status := .running, cause := .none, D := [] }

/-- `s`, running, with the bytes stored at `p` and `IN_LEN` long enough for them. -/
def State.placeBytes (s : State) (bytes : List Byte) : State :=
  let t := s.asRunning
  { t with
    S := Memory.load .input t.S t.p bytes
    inLen := if t.p + bytes.length ≤ t.inLen.toNat then t.inLen else BitVec.ofNat 32 (t.p + bytes.length) }

end Sys2Proof.Machine
end

