-- ==== Sys2Proof/Machine/Step.lean ====
section
/-! DEFINITION. One step of the block (spec 40_sequencer.md R62 to R65): one whole command, atomic towards the host. -/

namespace Sys2Proof.Machine

/-- The one move of a running block: fetch, decode under `MODE`, dispatch. A block that is not running has none (R65). -/
def step (s : State) : Host.Outcome State Fault Refusal :=
  match s.status with
  | .idle => .refused .notRunning
  | .done => .refused .notRunning
  | .running =>
    match s.fetch with
    | .halted c => .next (s.halt c)
    | .stopped f => .fault f
    | .head b0 b1 =>
      match Mode.ofCode s.mode with
      | none => .refused .illegalMode
      | some m => exec (decodeHead m b0 b1) s

/-- `s` with the instruction of a table word stored where `step` fetches next, running, so that the very next step runs it. -/
def State.withFetchWord (s : State) (nbits w : Nat) : State := s.placeBytes (tableBytes nbits w placeLength)

end Sys2Proof.Machine
end

