-- ==== Sys2Proof/Machine/HostOps.lean ====
section
/-! DEFINITION. The host interface (spec 40_sequencer.md R61, 60_exceptions.md R100, 70_reset_and_hazards.md R106 to R112,
20_memory.md R43, 10_state.md R30): reset, the host's writes, START, and the host's reads. -/

namespace Sys2Proof.Machine

/-- `ROWBYTES'` of R61, from the configuration registers (R6). -/
def State.newRowBytes (s : State) (m : Mode) : Nat := rowBytesOf m s.width.toNat s.pitch.toNat

/-- `OUT_LEN'` of R61 (R6). -/
def State.newOutLen (s : State) (m : Mode) : Nat := s.newRowBytes m * s.height.toNat

/-- The personality of a legal configuration (R8): `MODE ∈ {1, 2}`, `OUT_LEN' ≤ MAX_OUT`, `IN_LEN ≤ MAX_IN`. -/
def State.legalMode (s : State) : Option Mode :=
  match Mode.ofCode s.mode with
  | none => none
  | some m =>
    if s.newOutLen m ≤ s.params.maxOut ∧ s.inLen.toNat ≤ s.params.maxIn then some m else none

/-- What START writes (R61), for the personality `m`: the latched constants, the zero fill of all of `D`, the cursors, the
line counter, the shift, and the two status registers. -/
def State.started (s : State) (m : Mode) : State :=
  { s with
    rowBytes := s.newRowBytes m, outLen := s.newOutLen m, D := []
    p := 0, d := 0, line := 0, shift := .high
    cause := .none, status := .running }

/-- START (R61): refused while `RUNNING` or when the configuration is illegal. -/
def State.start (s : State) : Result :=
  match s.status with
  | .running => .refused .startWhileRunning
  | _ =>
    match s.legalMode with
    | none => .refused .startIllegal
    | some m => .next (s.started m)

/-- A host write, which has no move while `RUNNING` (R43). -/
def State.hostWrite (s t : State) : Result :=
  match s.status with
  | .running => .refused .hostWhileRunning
  | _ => .next t

/-- What the host's commands do. Reset may be applied at any time (R106). -/
def hostExec (c : HostCmd) (s : State) : Result :=
  match c with
  | .reset => .next (State.resetOf s.params)
  | .writeMode v => s.hostWrite { s with mode := v }
  | .writeWidth v => s.hostWrite { s with width := v }
  | .writeHeight v => s.hostWrite { s with height := v }
  | .writePitch v => s.hostWrite { s with pitch := v }
  | .writeInLen v => s.hostWrite { s with inLen := v }
  | .writeInput a b =>
    if a < s.params.maxIn then s.hostWrite { s with S := Memory.write .input s.S a b }
    else .refused .hostOffset
  | .start => s.start

/-- A sequence of host commands, up to the first that is refused. -/
def hostExecAll : List HostCmd → State → Result
  | [], s => .next s
  | c :: cs, s =>
    match hostExec c s with
    | .next t => hostExecAll cs t
    | .fault f => .fault f
    | .refused r => .refused r

/-- The commands that load consecutive bytes of `S` from `a` on (R108). -/
def loadCommands (a : Nat) : List Byte → List HostCmd
  | [] => []
  | b :: bs => .writeInput a b :: loadCommands (a + 1) bs

/-- The host's duties for a listing, in the order of R112: `S`, `MODE`, `WIDTH`, `HEIGHT`, `PITCH`, `IN_LEN`, START. -/
def launchCommands (l : Listing) : List HostCmd :=
  loadCommands 0 l.bytes ++
    [.writeMode l.mode.code, .writeWidth l.width, .writeHeight l.height, .writePitch l.pitch,
     .writeInLen (BitVec.ofNat 32 l.bytes.length), .start]

/-- A value the host may read when the block has halted (R30). -/
def State.whenDone (s : State) (v : Except Refusal Nat) : Except Refusal Nat :=
  match s.status with
  | .idle => .error .notDone
  | .running => .error .hostWhileRunning
  | .done => v

/-- A value the host may read when the block does not run (R43). -/
def State.whenNotRunning (s : State) (v : Except Refusal Nat) : Except Refusal Nat :=
  match s.status with
  | .running => .error .hostWhileRunning
  | _ => v

/-- What the host reads (R30, R43), as the register's code or number. A read has no side effect (R35). -/
def hostRead (q : HostQuery) (s : State) : Except Refusal Nat :=
  match q with
  | .status => .ok s.status.code
  | .cause => s.whenDone (.ok s.cause.code)
  | .p => s.whenDone (.ok s.p)
  | .d => s.whenDone (.ok s.d)
  | .line => s.whenDone (.ok s.line)
  | .shift => s.whenDone (.ok s.shift.code)
  | .output a => s.whenDone (if a < s.outLen then .ok (s.outByte a).toNat else .error .noSuchCell)
  | .mode => s.whenNotRunning (.ok s.mode.toNat)
  | .width => s.whenNotRunning (.ok s.width.toNat)
  | .height => s.whenNotRunning (.ok s.height.toNat)
  | .pitch => s.whenNotRunning (.ok s.pitch.toNat)
  | .inLen => s.whenNotRunning (.ok s.inLen.toNat)
  | .input a =>
    s.whenNotRunning <|
      if a < s.inLen.toNat then
        match s.inByte a with
        | some b => .ok b.toNat
        | none => .error .noSuchCell
      else .error .noSuchCell

end Sys2Proof.Machine
end

