-- ==== Sys2Proof/Safety.lean ====
section
/-! DEFINITION. What the statements say about runs: the invariant of the block, a loaded stream, and two blocks that the
block itself cannot tell apart. -/

namespace Sys2Proof.Machine

/-- Every cell of `S` below `IN_LEN` has been written: the host duty of R108. -/
def State.Loaded (s : State) : Prop := ∀ a, a < s.inLen.toNat → (s.inByte a).isSome = true

/-- Every listed cell of `D` exists (R23). -/
def State.OutputInside (s : State) : Prop := ∀ c ∈ s.D, c.1 < s.outLen

/-- The configuration registers still say what START latched, and that was legal (R6, R8, R61). -/
def State.Latched (s : State) : Prop :=
  ∃ m, Mode.ofCode s.mode = some m ∧ s.rowBytes = s.newRowBytes m ∧ s.outLen = s.newOutLen m ∧
    s.outLen ≤ s.params.maxOut ∧ s.inLen.toNat ≤ s.params.maxIn

/-- The invariant that every step and every host command keeps. -/
structure State.Inv (s : State) : Prop where
  /-- `S` and `D` are in canonical form -/
  input_wf : Memory.wf .input s.S
  output_wf : Memory.wf .output s.D
  /-- `D` has `OUT_LEN` cells (R23) -/
  output_inside : s.OutputInside
  /-- `CAUSE` is `NONE` exactly when the block has not halted (R21) -/
  cause_none : s.cause = .none ↔ s.status ≠ .done
  /-- a running block runs under the legal configuration that START latched (R61, R43) -/
  latched : s.status = .running → s.Latched
  /-- R14: `p ≤ IN_LEN` -/
  p_le : s.status = .running → s.p ≤ s.inLen.toNat
  /-- R15: `d ≤ OUT_LEN` -/
  d_le : s.status ≠ .idle → s.d ≤ s.outLen
  /-- R16: an EOL retires only if its row start is in `D` -/
  line_le : s.status ≠ .idle → s.line * s.rowBytes ≤ s.outLen
  /-- R16: each EOL consumes two bytes of the stream -/
  line_bytes : s.status ≠ .idle → 2 * s.line ≤ s.p
  /-- R17: in RLE8 `shift` stays 4 -/
  rle8_shift : s.status = .running → s.mode = Mode.rle8.code → s.shift = .high

/-- The registers that no command writes: the build-time parameters, the configuration, the latched constants (R5, R13). -/
def SameSetup (s t : State) : Prop :=
  t.params = s.params ∧ t.mode = s.mode ∧ t.width = s.width ∧ t.height = s.height ∧ t.pitch = s.pitch ∧
    t.inLen = s.inLen ∧ t.rowBytes = s.rowBytes ∧ t.outLen = s.outLen

/-- Pixel `i` (from 0) of an RLE4 ABS at `p`, as the table of R83 gives it for each value of `ABS4_ADVANCE`. -/
def State.absPixel (s : State) (i : Nat) : Nibble :=
  match s.params.abs4 with
  | .value => nib ((s.inByte (s.p + 2)).getD 0 + BitVec.ofNat 8 (i / 2)) (if i % 2 = 0 then .high else .low)
  | _ => nib ((s.inByte (s.p + 2 + i / 2)).getD 0) (if i % 2 = 0 then .high else .low)

/-- The instruction that the two bytes at `p` are the head of, under `MODE` (R52), if both are loaded. -/
def State.headInstr (s : State) : Option Instr :=
  match Mode.ofCode s.mode, s.inByte s.p, s.inByte (s.p + 1) with
  | some m, some b0, some b1 => some (decodeHead m b0 b1)
  | _, _, _ => none

/-- How many bytes of `D` from `d` on an instruction at `s` may store to: a run's or a copy's whole extent (R73, R77, R79),
and none for the others. -/
def State.storeExtent (s : State) : Instr → Nat
  | .rle8Run count _ => count.toNat
  | .rle8Eol => 0
  | .rle8Eob => 0
  | .rle8Delta => 0
  | .rle8Abs n => n.toNat
  | .rle4Run count _ => touched s.d s.shift count.toNat
  | .rle4Eol => 0
  | .rle4Eob => 0
  | .rle4Delta => 0
  | .rle4Abs n => touched s.d s.shift n.toNat

/-- The two blocks differ at most in cells of `S` that do not exist, at offsets `≥ IN_LEN` (R22). -/
def SameStream (s t : State) : Prop :=
  t = { s with S := t.S } ∧ ∀ a, a < s.inLen.toNat → t.inByte a = s.inByte a

/-- What START reads: the build-time parameters, the configuration registers and `S` (R61, R67). -/
def SameInputs (s t : State) : Prop :=
  t.params = s.params ∧ t.mode = s.mode ∧ t.width = s.width ∧ t.height = s.height ∧ t.pitch = s.pitch ∧
    t.inLen = s.inLen ∧ ∀ a, a < s.inLen.toNat → t.inByte a = s.inByte a

end Sys2Proof.Machine
end

