-- ==== Sys2Proof/Certificates/Slice0/Obligations.lean ====
section
/-! DEFINITION. The statements about the block, for the provers. Each docstring names the rule of the spec it comes from. A
statement about a state is about every state, and so about every value of the build-time parameters that the state
carries. `s.Loaded` is the host duty of R108. -/

open Sys2Proof Sys2Proof.Machine

/-! ### Encoding -/

/-- R48 to R52, 95_test_vectors.md 2.4: heads written out from the formats decode to the commands they stand for. `MODE` 0 and 3
select no personality (R18), and one byte is no head (R52 takes two, and R62 halts on a head cut in two); that the decoder
answers these with a rejection, and its name, is the model's choice (assumption log, entry 6). -/
def Obligations.KnownHeadsDecode : Prop :=
  decode 1 [0x02, 0x41] = .ok (.rle8Run 2 0x41) ∧ decode 1 [0xFF, 0xFF] = .ok (.rle8Run 255 0xFF) ∧
  decode 1 [0x00, 0x00] = .ok .rle8Eol ∧ decode 1 [0x00, 0x01] = .ok .rle8Eob ∧
  decode 1 [0x00, 0x02, 0x01, 0x03] = .ok .rle8Delta ∧ decode 1 [0x00, 0x03, 0x0A] = .ok (.rle8Abs 3) ∧
  decode 1 [0x00, 0xFF] = .ok (.rle8Abs 255) ∧
  decode 2 [0x04, 0x21] = .ok (.rle4Run 4 0x21) ∧ decode 2 [0x00, 0x00] = .ok .rle4Eol ∧
  decode 2 [0x00, 0x01] = .ok .rle4Eob ∧ decode 2 [0x00, 0x02] = .ok .rle4Delta ∧
  decode 2 [0x00, 0x03] = .ok (.rle4Abs 3) ∧
  decode 0 [0x00, 0x01] = .error .illegalMode ∧ decode 3 [0x00, 0x01] = .error .illegalMode ∧
  decode 1 [0x00] = .error .headCut

/-- R52: the decode algorithm, case by case, in both personalities; the cases are disjoint and cover every head, and each
head is the head of exactly one well-formed command of the personality. -/
def Obligations.EveryHeadIsOneCommand : Prop :=
  ∀ (m : Mode) (b0 b1 : Byte),
    (b0 ≠ 0 → decodeHead m b0 b1 = match m with | .rle8 => .rle8Run b0 b1 | .rle4 => .rle4Run b0 b1) ∧
    (b0 = 0 → b1 = 0 → decodeHead m b0 b1 = match m with | .rle8 => .rle8Eol | .rle4 => .rle4Eol) ∧
    (b0 = 0 → b1 = 1 → decodeHead m b0 b1 = match m with | .rle8 => .rle8Eob | .rle4 => .rle4Eob) ∧
    (b0 = 0 → b1 = 2 → decodeHead m b0 b1 = match m with | .rle8 => .rle8Delta | .rle4 => .rle4Delta) ∧
    (b0 = 0 → 3 ≤ b1.toNat → decodeHead m b0 b1 = match m with | .rle8 => .rle8Abs b1 | .rle4 => .rle4Abs b1) ∧
    ∀ i : Instr, (i.wf = true ∧ i.mode = m ∧ encode i = [b0, b1]) ↔ i = decodeHead m b0 b1

/-- R51, R55, R56: a stream of whole commands of either personality (every operand, data and padding byte at every value)
decodes to exactly those commands, whatever `ABS4_ADVANCE` is. -/
def Obligations.StreamDecodesToItsCommands : Prop :=
  ∀ (adv : Abs4Advance) (m : Mode) (cs : List Command), (∀ c ∈ cs, c.wf adv m = true) →
    decodeStream adv m (encodeStream cs) = .ok cs

/-- R55, R56: what the decoder reads from a stream are well-formed commands, and their bytes are the stream. -/
def Obligations.DecodedStreamIsTheBytes : Prop :=
  ∀ (adv : Abs4Advance) (m : Mode) (bytes : List Byte) (cs : List Command),
    decodeStream adv m bytes = .ok cs → encodeStream cs = bytes ∧ ∀ c ∈ cs, c.wf adv m = true

/-- R55 (with R51): the lengths of the commands, and that a command that retires adds its length to `p`. -/
def Obligations.RetireAddsTheLength : Prop :=
  (∀ (adv : Abs4Advance) (count v n : Byte),
    commandLength adv (.rle8Run count v) = 2 ∧ commandLength adv (.rle4Run count v) = 2 ∧
    commandLength adv .rle8Eol = 2 ∧ commandLength adv .rle4Eol = 2 ∧
    commandLength adv .rle8Eob = 2 ∧ commandLength adv .rle4Eob = 2 ∧
    commandLength adv .rle8Delta = 4 ∧ commandLength adv .rle4Delta = 4 ∧
    commandLength adv (.rle8Abs n) = 2 + (n.toNat + n.toNat % 2) ∧
    commandLength .pointer (.rle4Abs n) = 2 + (n.toNat + 1) / 2 ∧
    commandLength .value (.rle4Abs n) = 2 + n.toNat % 2 ∧
    commandLength .aligned (.rle4Abs n) = 2 + ((n.toNat + 1) / 2 + (n.toNat + 1) / 2 % 2)) ∧
  ∀ s t : State, step s = .next t → (t.status = .running ∨ t.cause = .eob) →
    ∃ i, s.headInstr = some i ∧ t.p = s.p + commandLength s.params.abs4 i

/-! ### Fetch and dispatch -/

/-- R11: the three bounds predicates under both settings of `BOUND_STRICT`; a read extent that passes lies in `S` and a write
extent in `D`. -/
def Obligations.BoundsPredicates : Prop :=
  ∀ (s : State) (a n : Nat),
    (s.params.boundStrict = false →
      (s.canRead a n = true ↔ a + n ≤ s.inLen.toNat) ∧ (s.canWrite a n = true ↔ a + n ≤ s.outLen)) ∧
    (s.params.boundStrict = true →
      (s.canRead a n = true ↔ a + n < s.inLen.toNat) ∧ (s.canWrite a n = true ↔ a + n < s.outLen)) ∧
    (s.canMove a = true ↔ a ≤ s.outLen) ∧
    (∀ k, k < n → s.canRead a n = true → a + k < s.inLen.toNat) ∧
    (∀ k, k < n → s.canWrite a n = true → a + k < s.outLen)

/-- R62: the fetch of a running block, test by test in order, and then the dispatch: when the bytes at `p` decode to `i`, the
step is `exec i`. The cells fetch reads are assumed loaded, and `MODE` legal. -/
def Obligations.StepFetchesThenDispatches : Prop :=
  ∀ s : State, s.status = .running →
    (¬ s.p < s.inLen.toNat → step s = .next { s with status := .done, cause := .oobIn }) ∧
    (s.p < s.inLen.toNat → s.params.haltOutFull = true → ¬ s.d < s.outLen →
      step s = .next { s with status := .done, cause := .outFull }) ∧
    (s.p < s.inLen.toNat → ¬ (s.params.haltOutFull = true ∧ ¬ s.d < s.outLen) → ∀ b0, s.inByte s.p = some b0 →
      (s.canRead (s.p + 1) 1 = false → step s = .next { s with status := .done, cause := .oobIn }) ∧
      (s.canRead (s.p + 1) 1 = true → ∀ b1 i, s.inByte (s.p + 1) = some b1 →
        decode s.mode [b0, b1] = .ok i → step s = exec i s))

/-- R65, R106: a block that is not running has no move. That the model answers this with a refusal is its own choice
(assumption log, entry 4). -/
def Obligations.NoMoveUnlessRunning : Prop :=
  ∀ s : State, s.status ≠ .running → step s = .refused .notRunning

/-- R64: a running block under a legal `MODE` whose stream is loaded always has its successor, whatever the stream holds: the
step stops with no fault and no refusal. -/
def Obligations.EveryRunningStepSucceeds : Prop :=
  ∀ s : State, s.status = .running → (Mode.ofCode s.mode).isSome = true → s.Loaded → ∃ t, step s = .next t ∧ t.Loaded

/-! ### The RLE8 commands -/

/-- R73: RLE8 `RUN count, v` writes `v` to the `count` bytes from `d` on, moves `d` past them and retires; when the extent
does not fit it halts with `OOB_OUT` and nothing is written. -/
def Obligations.Rle8RunResult : Prop :=
  ∀ (count v : Byte) (s : State),
    (s.canWrite s.d count.toNat = true →
      ∃ t, exec (.rle8Run count v) s = .next t ∧
        t = { s with p := s.p + 2, d := s.d + count.toNat, D := t.D } ∧
        ∀ a, t.outByte a = if s.d ≤ a ∧ a < s.d + count.toNat then v else s.outByte a) ∧
    (s.canWrite s.d count.toNat = false →
      exec (.rle8Run count v) s = .next { s with status := .done, cause := .oobOut })

/-- R74: RLE8 `EOL` moves `d` to the start of row `line + 1`, counts the line and retires; beyond the end of `D` it halts
with `OOB_OUT`. -/
def Obligations.Rle8EolResult : Prop :=
  ∀ s : State,
    ((s.line + 1) * s.rowBytes ≤ s.outLen →
      exec .rle8Eol s = .next { s with p := s.p + 2, d := (s.line + 1) * s.rowBytes, line := s.line + 1 }) ∧
    (s.outLen < (s.line + 1) * s.rowBytes →
      exec .rle8Eol s = .next { s with status := .done, cause := .oobOut })

/-- R75, R86: `EOB` moves `p` past itself and halts with `EOB`, in every state; nothing else changes. -/
def Obligations.EobResult : Prop :=
  ∀ s : State,
    exec .rle8Eob s = .next { s with p := s.p + 2, status := .done, cause := .eob } ∧
    exec .rle4Eob s = .next { s with p := s.p + 2, status := .done, cause := .eob }

/-- R76: RLE8 `DELTA dx, dy` moves `d` by `dx + dy × ROWBYTES` and retires, leaving `line` and `shift`; `OOB_IN` when the
operands are not readable, `OOB_OUT` when the target is beyond the end of `D`. -/
def Obligations.Rle8DeltaResult : Prop :=
  ∀ s : State,
    (s.canRead (s.p + 2) 2 = false → exec .rle8Delta s = .next { s with status := .done, cause := .oobIn }) ∧
    (s.canRead (s.p + 2) 2 = true → ∀ dx dy, s.inByte (s.p + 2) = some dx → s.inByte (s.p + 3) = some dy →
      (s.d + dx.toNat + dy.toNat * s.rowBytes ≤ s.outLen →
        exec .rle8Delta s = .next { s with p := s.p + 4, d := s.d + dx.toNat + dy.toNat * s.rowBytes }) ∧
      (s.outLen < s.d + dx.toNat + dy.toNat * s.rowBytes →
        exec .rle8Delta s = .next { s with status := .done, cause := .oobOut }))

/-- R77: RLE8 `ABS n` copies the `n` bytes after the head to `D` from `d` on and moves both cursors past them; then it skips
`n % 2` padding bytes and retires, or, when they are not readable, halts with `OOB_IN` with the copy kept. Data cut off:
`OOB_IN`, checked first. Output too small: `OOB_OUT`. Nothing is copied then. -/
def Obligations.Rle8AbsResult : Prop :=
  ∀ (n : Byte) (s : State),
    (s.canRead (s.p + 2) n.toNat = false →
      exec (.rle8Abs n) s = .next { s with status := .done, cause := .oobIn }) ∧
    (s.canRead (s.p + 2) n.toNat = true → s.canWrite s.d n.toNat = false →
      exec (.rle8Abs n) s = .next { s with status := .done, cause := .oobOut }) ∧
    (s.canRead (s.p + 2) n.toNat = true → s.canWrite s.d n.toNat = true →
      (∀ i, i < n.toNat → (s.inByte (s.p + 2 + i)).isSome = true) →
      ∃ t, exec (.rle8Abs n) s = .next t ∧
        (∀ a, t.outByte a =
          if s.d ≤ a ∧ a < s.d + n.toNat then (s.inByte (s.p + 2 + (a - s.d))).getD 0 else s.outByte a) ∧
        (s.canRead (s.p + 2 + n.toNat) (n.toNat % 2) = true →
          t = { s with p := s.p + 2 + n.toNat + n.toNat % 2, d := s.d + n.toNat, D := t.D }) ∧
        (s.canRead (s.p + 2 + n.toNat) (n.toNat % 2) = false →
          t = { s with
                p := s.p + 2 + n.toNat, d := s.d + n.toNat, D := t.D, status := .done, cause := .oobIn }))

/-- R77's corner cases: an even-`n` RLE8 ABS never halts after its copy, for either setting of `BOUND_STRICT`. -/
def Obligations.EvenRle8AbsNeverLacksPadding : Prop :=
  ∀ (n : Byte) (s t : State), s.status = .running → n.toNat % 2 = 0 →
    s.canRead (s.p + 2) n.toNat = true → s.canWrite s.d n.toNat = true →
    exec (.rle8Abs n) s = .next t → t.status = .running

/-- R35, R77 (U7): the value of the padding byte of an RLE8 ABS is never read: storing another byte there beforehand changes
the outcome in that byte only. -/
def Obligations.PaddingByteIsNotRead : Prop :=
  ∀ (n b : Byte) (s t : State), exec (.rle8Abs n) s = .next t →
    exec (.rle8Abs n) { s with S := Memory.write .input s.S (s.p + 2 + n.toNat) b } =
      .next { t with S := Memory.write .input s.S (s.p + 2 + n.toNat) b }

/-! ### The RLE4 commands -/

/-- R12: the nibble primitives, in terms of the two halves of the byte, and the nibble address. -/
def Obligations.NibblePrimitives : Prop :=
  (∀ b : Byte, nib b .high = b.extractLsb' 4 4 ∧ nib b .low = b.extractLsb' 0 4) ∧
  (∀ (old : Byte) (v : Nibble),
    (putnib old .high v).extractLsb' 4 4 = v ∧ (putnib old .high v).extractLsb' 0 4 = old.extractLsb' 0 4 ∧
    (putnib old .low v).extractLsb' 4 4 = old.extractLsb' 4 4 ∧ (putnib old .low v).extractLsb' 0 4 = v) ∧
  ∀ d, npos d .high = 2 * d ∧ npos d .low = 2 * d + 1

/-- R79: the extent formula, and that it is the extent of `k ≥ 1` pixels: pixel `i` lies in byte `(N + i) / 2`, from `d` on,
and the last one in the last byte counted. -/
def Obligations.TouchedIsTheExtent : Prop :=
  ∀ (d k : Nat) (sh : Shift), 1 ≤ k →
    touched d sh k = ceil2 (npos d sh + k) - d ∧
    touched d .high k = ceil2 k ∧ touched d .low k = 1 + k / 2 ∧
    (∀ i, i < k → d ≤ (npos d sh + i) / 2 ∧ (npos d sh + i) / 2 < d + touched d sh k) ∧
    (npos d sh + (k - 1)) / 2 + 1 = d + touched d sh k

/-- R80: `emit(c)` inside `D` writes `c` at the nibble position, keeps every other nibble, and steps the position: from
`(d, 4)` to `(d, 0)`, from `(d, 0)` to `(d + 1, 4)`. -/
def Obligations.EmitWritesOneNibble : Prop :=
  ∀ (s : State) (c : Nibble), s.d < s.outLen →
    ∃ t, s.emit c = .ok t ∧
      (∀ M, t.outNibble M = if M = npos s.d s.shift then c else s.outNibble M) ∧
      (s.shift = .high → t = { s with shift := .low, D := t.D }) ∧
      (s.shift = .low → t = { s with shift := .high, d := s.d + 1, D := t.D })

/-- R84 (with R89 (e)): RLE4 `RUN count, v` gives each of the `count` nibble positions from the write position on the
same-position nibble of `v`, so that every byte it covers completely becomes `v`, steps the position by `count` and
retires; when the touched bytes do not fit it halts with `OOB_OUT` and nothing is written. -/
def Obligations.Rle4RunResult : Prop :=
  ∀ (count v : Byte) (s : State),
    (s.canWrite s.d (touched s.d s.shift count.toNat) = true →
      ∃ t, exec (.rle4Run count v) s = .next t ∧
        t = { s with p := s.p + 2, d := t.d, shift := t.shift, D := t.D } ∧
        npos t.d t.shift = npos s.d s.shift + count.toNat ∧
        (∀ M, t.outNibble M =
          if npos s.d s.shift ≤ M ∧ M < npos s.d s.shift + count.toNat then
            nib v (if M % 2 = 0 then .high else .low)
          else s.outNibble M) ∧
        ∀ a, npos s.d s.shift ≤ 2 * a → 2 * a + 2 ≤ npos s.d s.shift + count.toNat → t.outByte a = v) ∧
    (s.canWrite s.d (touched s.d s.shift count.toNat) = false →
      exec (.rle4Run count v) s = .next { s with status := .done, cause := .oobOut })

/-- R85: RLE4 `EOL` moves `d` to the start of row `line + 1`, counts the line, sets `shift` to 4 and retires; beyond the end
of `D` it halts with `OOB_OUT`. -/
def Obligations.Rle4EolResult : Prop :=
  ∀ s : State,
    ((s.line + 1) * s.rowBytes ≤ s.outLen →
      exec .rle4Eol s = .next
        { s with p := s.p + 2, d := (s.line + 1) * s.rowBytes, line := s.line + 1, shift := .high }) ∧
    (s.outLen < (s.line + 1) * s.rowBytes →
      exec .rle4Eol s = .next { s with status := .done, cause := .oobOut })

/-- R87: RLE4 `DELTA dx, dy` moves `d` by `dx / 2 + dy × ROWBYTES`, sets `shift` from the parity of `dx` alone and retires,
leaving `line`; `OOB_IN` when the operands are not readable, `OOB_OUT` when the target byte is beyond the end of `D`. -/
def Obligations.Rle4DeltaResult : Prop :=
  ∀ s : State,
    (s.canRead (s.p + 2) 2 = false → exec .rle4Delta s = .next { s with status := .done, cause := .oobIn }) ∧
    (s.canRead (s.p + 2) 2 = true → ∀ dx dy, s.inByte (s.p + 2) = some dx → s.inByte (s.p + 3) = some dy →
      (s.d + dx.toNat / 2 + dy.toNat * s.rowBytes ≤ s.outLen →
        exec .rle4Delta s = .next
          { s with
            p := s.p + 4, d := s.d + dx.toNat / 2 + dy.toNat * s.rowBytes,
            shift := if dx.toNat % 2 = 0 then .high else .low }) ∧
      (s.outLen < s.d + dx.toNat / 2 + dy.toNat * s.rowBytes →
        exec .rle4Delta s = .next { s with status := .done, cause := .oobOut }))

/-- R89 (b): where a DELTA that retires moves the nibble address. The old `shift` drops out, so from a low-nibble position the
move is one nibble short. -/
def Obligations.Rle4DeltaNibbleAddress : Prop :=
  ∀ (s t : State) (dx dy : Byte), s.status = .running →
    s.inByte (s.p + 2) = some dx → s.inByte (s.p + 3) = some dy →
    exec .rle4Delta s = .next t → t.status = .running →
    npos t.d t.shift = 2 * s.d + dx.toNat + 2 * dy.toNat * s.rowBytes ∧
    (s.shift = .high → npos t.d t.shift = npos s.d s.shift + dx.toNat + 2 * dy.toNat * s.rowBytes) ∧
    (s.shift = .low → npos t.d t.shift + 1 = npos s.d s.shift + dx.toNat + 2 * dy.toNat * s.rowBytes)

/-- R88 (with R82, R83): RLE4 `ABS n`, for each value of `ABS4_ADVANCE`. The two checks, then: the `n` nibble positions from the
write position on get the pixels of R83's table, the position steps by `n`, under `value` the first data byte is
incremented `n / 2` times and nothing else of `S` changes; then the padding is skipped, or, when it is not readable, the
block halts with `OOB_IN` with all of that kept. -/
def Obligations.Rle4AbsResult : Prop :=
  ∀ (n : Byte) (s : State),
    (s.canRead (s.p + 2) (ceil2 n.toNat) = false →
      exec (.rle4Abs n) s = .next { s with status := .done, cause := .oobIn }) ∧
    (s.canRead (s.p + 2) (ceil2 n.toNat) = true → s.canWrite s.d (touched s.d s.shift n.toNat) = false →
      exec (.rle4Abs n) s = .next { s with status := .done, cause := .oobOut }) ∧
    (s.canRead (s.p + 2) (ceil2 n.toNat) = true → s.canWrite s.d (touched s.d s.shift n.toNat) = true →
      (∀ i, i < ceil2 n.toNat → (s.inByte (s.p + 2 + i)).isSome = true) →
      ∃ (t : State) (dataEnd pad : Nat), exec (.rle4Abs n) s = .next t ∧
        (s.params.abs4 = .pointer → dataEnd = s.p + 2 + n.toNat / 2 ∧ pad = n.toNat % 2) ∧
        (s.params.abs4 = .value → dataEnd = s.p + 2 ∧ pad = n.toNat % 2) ∧
        (s.params.abs4 = .aligned → dataEnd = s.p + 2 + ceil2 n.toNat ∧ pad = ceil2 n.toNat % 2) ∧
        npos t.d t.shift = npos s.d s.shift + n.toNat ∧
        (∀ M, t.outNibble M =
          if npos s.d s.shift ≤ M ∧ M < npos s.d s.shift + n.toNat then s.absPixel (M - npos s.d s.shift)
          else s.outNibble M) ∧
        (s.params.abs4 ≠ .value → t.S = s.S) ∧
        (s.params.abs4 = .value → ∀ a, t.inByte a =
          if a = s.p + 2 then (s.inByte a).map (· + BitVec.ofNat 8 (n.toNat / 2)) else s.inByte a) ∧
        (s.canRead dataEnd pad = true →
          t = { s with p := dataEnd + pad, d := t.d, shift := t.shift, S := t.S, D := t.D }) ∧
        (s.canRead dataEnd pad = false →
          t = { s with
                p := dataEnd, d := t.d, shift := t.shift, S := t.S, D := t.D,
                status := .done, cause := .oobIn }))

/-- R90: under `pointer` and `value` the padding check of an RLE4 ABS never fails, for either setting of `BOUND_STRICT`. -/
def Obligations.Rle4PaddingNeverMissing : Prop :=
  ∀ (n : Byte) (s t : State), s.params.abs4 ≠ .aligned → s.status = .running →
    s.canRead (s.p + 2) (ceil2 n.toNat) = true → s.canWrite s.d (touched s.d s.shift n.toNat) = true →
    exec (.rle4Abs n) s = .next t → t.status = .running ∧ t.cause = s.cause

/-! ### Frames: what an instruction that answers a next state, halts included, leaves unchanged -/

/-- R73, R77 (frame): an RLE8 RUN or ABS stores only to the bytes of its extent from `d` on, and writes no register but `p`, `d`,
`STATUS` and `CAUSE`. -/
def Obligations.Rle8StoreFrame : Prop :=
  ∀ (i : Instr) (s t : State), ((∃ count v, i = .rle8Run count v) ∨ ∃ n, i = .rle8Abs n) → exec i s = .next t →
    (∀ a, ¬ (s.d ≤ a ∧ a < s.d + s.storeExtent i) → t.outByte a = s.outByte a) ∧
    t.S = s.S ∧ t.line = s.line ∧ t.shift = s.shift ∧ SameSetup s t

/-- R84, R88 (frame): an RLE4 RUN or ABS stores only to the nibbles from the write position on, and so only to the bytes of its
extent from `d` on; it writes no register but `p`, `d`, `shift`, `STATUS` and `CAUSE`; it leaves `S` alone, but for an ABS under
`value`, which writes `S[p+2]`. -/
def Obligations.Rle4StoreFrame : Prop :=
  ∀ (i : Instr) (s t : State) (k : Nat),
    ((∃ count v, i = .rle4Run count v ∧ k = count.toNat) ∨ ∃ n, i = .rle4Abs n ∧ k = n.toNat) → exec i s = .next t →
    (∀ M, ¬ (npos s.d s.shift ≤ M ∧ M < npos s.d s.shift + k) → t.outNibble M = s.outNibble M) ∧
    (∀ a, ¬ (s.d ≤ a ∧ a < s.d + s.storeExtent i) → t.outByte a = s.outByte a) ∧
    t.line = s.line ∧ SameSetup s t ∧
    ((∃ count v, i = .rle4Run count v) ∨ s.params.abs4 ≠ .value → t.S = s.S) ∧
    ∀ a, a ≠ s.p + 2 → t.inByte a = s.inByte a

/-- R74 to R76, R85 to R87 (frame): EOL, EOB and DELTA write neither memory and no configuration or latched register; EOB and DELTA
leave `line`; EOB and the RLE8 commands leave `shift`; EOB leaves `d`. -/
def Obligations.NoStoreFrame : Prop :=
  ∀ (i : Instr) (s t : State),
    i = .rle8Eol ∨ i = .rle8Eob ∨ i = .rle8Delta ∨ i = .rle4Eol ∨ i = .rle4Eob ∨ i = .rle4Delta → exec i s = .next t →
    t.D = s.D ∧ t.S = s.S ∧ SameSetup s t ∧
    (i ≠ .rle8Eol → i ≠ .rle4Eol → t.line = s.line) ∧
    (i ≠ .rle4Eol → i ≠ .rle4Delta → t.shift = s.shift) ∧
    (i = .rle8Eob ∨ i = .rle4Eob → t.d = s.d)

/-! ### The whole machine, one step -/

/-- The invariant holds right after reset (for every instance). The cursors' clauses speak of a started block only, so that
none of them rests on a reset value of a register that the model chose; that the memories list nothing at reset is the
model's choice (assumption log, entry 2). -/
def Obligations.ResetMeetsInvariant : Prop := ∀ c : Params, (State.resetOf c).Inv

/-- R14 to R17, R21 to R23: every step keeps the invariant, from every state that meets it. -/
def Obligations.StepKeepsInvariant : Prop := ∀ s t : State, s.Inv → step s = .next t → t.Inv

/-- R26, R43, R61: every host command that is not refused keeps the invariant; START establishes the running part of it. -/
def Obligations.HostKeepsInvariant : Prop := ∀ (c : HostCmd) (s t : State), s.Inv → hostExec c s = .next t → t.Inv

/-- R14, R15: after any step from a state that meets the invariant, a halting one too, both cursors are within their buffers, and
`p` has not decreased. -/
def Obligations.CursorsStayInBounds : Prop :=
  ∀ s t : State, s.Inv → step s = .next t → t.p ≤ t.inLen.toNat ∧ t.d ≤ t.outLen ∧ s.p ≤ t.p

/-- R27: in a running block with the default caps or smaller ones, the registers and every candidate target fit the widths that
R27 names. -/
def Obligations.RegistersFitTheirWidths : Prop :=
  ∀ s : State, s.Inv → s.status = .running → s.params.maxIn < 2 ^ 31 → s.params.maxOut < 2 ^ 31 →
    s.p + 258 < 2 ^ 32 ∧ s.line + 1 < 2 ^ 32 ∧ s.d + 255 + 255 * s.rowBytes < 2 ^ 63 ∧
    (s.line + 1) * s.rowBytes < 2 ^ 63 ∧ s.outLen < 2 ^ 31

/-- R98, in the model's form: no step, of any state whatever, ends in the fault of an access to `S` at an offset `≥ IN_LEN` or to `D`
at an offset `≥ OUT_LEN`. That such an access is a fault is the model's choice (assumption log, entry 17); every access of the model goes
through the operations that raise it. The only fault there can be is that of a cell the host did not load, which is the model's
reading of R26 and R108 (entry 3). -/
def Obligations.NoAccessOutsideTheBuffers : Prop :=
  ∀ s : State, step s ≠ .fault .inputOutside ∧ step s ≠ .fault .outputOutside ∧
    (s.Loaded → ∀ f, step s ≠ .fault f)

/-- R66: a step that does not halt consumes two bytes of the stream at least, and stays inside it. -/
def Obligations.StepConsumesTwoBytes : Prop :=
  ∀ s t : State, step s = .next t → t.status ≠ .done → s.p + 2 ≤ t.p ∧ t.p ≤ s.inLen.toNat

/-- R95: what a halting step leaves. Either the halt is an EOB's, with `p` past it and nothing else changed; or nothing but `STATUS`
and `CAUSE` changed; or it is one of the two halts after a copy, with `CAUSE = OOB_IN`, `p` at the missing padding byte, the output
cursor after the pixels, and the copied pixels, and nothing else new, in `D` (R77, and R83's table for RLE4). -/
def Obligations.HaltsArePrecise : Prop :=
  ∀ s t : State, step s = .next t → t.status = .done →
    (t = { s with p := s.p + 2, status := .done, cause := .eob } ∧
      (s.headInstr = some .rle8Eob ∨ s.headInstr = some .rle4Eob)) ∨
    (t = { s with status := .done, cause := t.cause } ∧ (t.cause = .oobIn ∨ t.cause = .oobOut ∨ t.cause = .outFull)) ∨
    (t.cause = .oobIn ∧
      ((∃ n, s.headInstr = some (.rle8Abs n) ∧ t.p = s.p + 2 + n.toNat ∧ s.canRead t.p (n.toNat % 2) = false ∧
          t = { s with p := t.p, d := s.d + n.toNat, D := t.D, status := .done, cause := .oobIn } ∧
          ∀ a, t.outByte a =
            if s.d ≤ a ∧ a < s.d + n.toNat then (s.inByte (s.p + 2 + (a - s.d))).getD 0 else s.outByte a) ∨
       (∃ n, s.headInstr = some (.rle4Abs n) ∧ s.params.abs4 = .aligned ∧ t.p = s.p + 2 + ceil2 n.toNat ∧
          s.canRead t.p (ceil2 n.toNat % 2) = false ∧
          t = { s with p := t.p, d := t.d, shift := t.shift, D := t.D, status := .done, cause := .oobIn } ∧
          npos t.d t.shift = npos s.d s.shift + n.toNat ∧
          ∀ M, t.outNibble M =
            if npos s.d s.shift ≤ M ∧ M < npos s.d s.shift + n.toNat then s.absPixel (M - npos s.d s.shift)
            else s.outNibble M)))

/-- R93, R94: which halts have the causes `EOB` and `OUT_FULL`, and that a halting step always names a cause. -/
def Obligations.HaltCauses : Prop :=
  ∀ s t : State, step s = .next t → t.status = .done →
    t.cause ≠ .none ∧
    (t.cause = .eob ↔ (s.headInstr = some .rle8Eob ∨ s.headInstr = some .rle4Eob) ∧ t.p = s.p + 2) ∧
    (t.cause = .outFull ↔ s.params.haltOutFull = true ∧ s.p < s.inLen.toNat ∧ s.outLen ≤ s.d)

/-- R5: no step changes the build-time parameters, the configuration registers or the latched constants. -/
def Obligations.SetupConstantWhileRunning : Prop := ∀ s t : State, step s = .next t → SameSetup s t

/-- R16: `line` counts the EOL commands that retire and nothing else. -/
def Obligations.LineCountsEols : Prop :=
  ∀ s t : State, step s = .next t →
    ((s.headInstr = some .rle8Eol ∨ s.headInstr = some .rle4Eol) → t.status = .running → t.line = s.line + 1) ∧
    (¬ ((s.headInstr = some .rle8Eol ∨ s.headInstr = some .rle4Eol) ∧ t.status = .running) → t.line = s.line)

/-- R41: the program is immutable while it runs, except that under `value` an RLE4 ABS writes `S[p+2]`. -/
def Obligations.StreamIsImmutable : Prop :=
  ∀ s t : State, step s = .next t →
    (s.params.abs4 ≠ .value → t.S = s.S) ∧
    ((∀ n, s.headInstr ≠ some (.rle4Abs n)) → t.S = s.S) ∧
    ∀ a, a ≠ s.p + 2 → t.inByte a = s.inByte a

/-- R78 (a), R89 (c): a byte of `D` changes only by a RUN or an ABS, and only inside that command's extent. -/
def Obligations.OnlyRunAndAbsWriteOutput : Prop :=
  ∀ (s t : State) (a : Nat), step s = .next t → t.outByte a ≠ s.outByte a →
    ∃ i, s.headInstr = some i ∧ s.d ≤ a ∧ a < s.d + s.storeExtent i ∧ a < s.outLen

/-- R17, R78 (d): in the RLE8 personality no step writes `shift`. -/
def Obligations.Rle8ShiftStays : Prop :=
  ∀ s t : State, s.mode = Mode.rle8.code → step s = .next t → t.shift = s.shift

/-! ### The whole machine, whole runs -/

/-- R66: every run terminates, within half the stream's remaining length and one more step. -/
def Obligations.EveryRunTerminates : Prop :=
  ∀ s : State, s.status = .running → (Mode.ofCode s.mode).isSome = true → s.Loaded →
    ∃ (k : Nat) (t : State), k ≤ (s.inLen.toNat - s.p) / 2 + 1 ∧ core.run k s = .next t ∧ t.status = .done

/-- R22, R108: what `S` holds beyond `IN_LEN` cannot influence a step. -/
def Obligations.BytesBeyondTheStreamDoNotMatter : Prop :=
  ∀ s1 s2 t1 : State, SameStream s1 s2 → step s1 = .next t1 → ∃ t2, step s2 = .next t2 ∧ SameStream t1 t2

/-- R115 (R61, R67): two runs with equal build-time parameters, equal configuration and equal `S` below `IN_LEN` at START go
through equal states, whatever the block did before, and so end with equal `D`, `CAUSE` and working registers. -/
def Obligations.RunDependsOnlyOnItsInputs : Prop :=
  ∀ s1 s2 t1 t2 : State, SameInputs s1 s2 → hostExec .start s1 = .next t1 → hostExec .start s2 = .next t2 →
    ∀ (k : Nat) (u1 : State), core.run k t1 = .next u1 → ∃ u2 : State, core.run k t2 = .next u2 ∧ SameStream u1 u2

/-! ### The host -/

/-- R61 (with R6, R8): START of a block that is not running. Under a legal configuration it latches `ROWBYTES` and `OUT_LEN`, zeroes
`D`, sets the cursors, the line counter and the shift, and sets `RUNNING`; under an illegal one, and while `RUNNING`, it is refused. -/
def Obligations.StartEffect : Prop :=
  ∀ s : State,
    (s.status = .running → hostExec .start s = .refused .startWhileRunning) ∧
    (s.status ≠ .running →
      (Mode.ofCode s.mode = none → hostExec .start s = .refused .startIllegal) ∧
      ∀ m, Mode.ofCode s.mode = some m →
        ∀ rb, rb = (match m with
            | .rle8 => s.width.toNat + s.pitch.toNat
            | .rle4 => (s.width.toNat + 1) / 2 + s.pitch.toNat) →
          (¬ (rb * s.height.toNat ≤ s.params.maxOut ∧ s.inLen.toNat ≤ s.params.maxIn) →
            hostExec .start s = .refused .startIllegal) ∧
          (rb * s.height.toNat ≤ s.params.maxOut → s.inLen.toNat ≤ s.params.maxIn →
            ∃ t, hostExec .start s = .next t ∧
              t = { s with
                    rowBytes := rb, outLen := rb * s.height.toNat, D := t.D, p := 0, d := 0, line := 0,
                    shift := .high, cause := .none, status := .running } ∧
              ∀ a, t.outByte a = 0))

/-- R106 (with R7): reset may be applied in any state, a running one too, and leaves `IDLE` and `NONE`, from where the block has no
move of its own; the instance's build-time parameters stay. -/
def Obligations.ResetEffect : Prop :=
  ∀ s : State, ∃ t, hostExec .reset s = .next t ∧ t.status = .idle ∧ t.cause = .none ∧ t.params = s.params ∧
    ∀ u, step t ≠ .next u

/-- R97: a halt stays until the next START (or reset): no step and no other host command changes `STATUS` or `CAUSE`. -/
def Obligations.HaltIsSticky : Prop :=
  ∀ s : State, s.status = .done →
    (∀ t, step s ≠ .next t) ∧
    ∀ c t, c ≠ .start → c ≠ .reset → hostExec c s = .next t → t.status = .done ∧ t.cause = s.cause ∧ t.D = s.D

/-- R43: while `RUNNING` the host has no move but reset, and reads nothing but `STATUS`. That a move without meaning is a refusal is
the model's choice (assumption log, entry 5). -/
def Obligations.HostLockedOutWhileRunning : Prop :=
  ∀ s : State, s.status = .running →
    (∀ c t, c ≠ .reset → hostExec c s ≠ .next t) ∧
    (∀ q v, q ≠ .status → hostRead q s ≠ .ok v) ∧ hostRead .status s = .ok 1

/-- R30 (with R20, R21): the host reads `STATUS` at any time, and at `DONE` it reads `CAUSE`, the working registers and `D`. -/
def Obligations.HostReadsTheResult : Prop :=
  ∀ s : State,
    (hostRead .status s = .ok (match s.status with | .idle => 0 | .running => 1 | .done => 2)) ∧
    (s.status = .done →
      hostRead .cause s =
        .ok (match s.cause with | .none => 0 | .eob => 1 | .oobIn => 2 | .oobOut => 3 | .outFull => 4) ∧
      hostRead .p s = .ok s.p ∧ hostRead .d s = .ok s.d ∧ hostRead .line s = .ok s.line ∧
      hostRead .shift s = .ok (match s.shift with | .high => 4 | .low => 0) ∧
      ∀ a, a < s.outLen → hostRead (.output a) s = .ok (s.outByte a).toNat)

/-- R57, R108 to R110, R112: from reset, the host's commands for a listing that fits, under a legal geometry, all take effect. They leave
a running block with `p = 0` whose stream is the listing's bytes, loaded, whose configuration registers hold the listing's mode,
geometry and length, and whose latched constants are those of R6. The list of commands, one of the orders that R112 allows, is the
model's (assumption log, entry 20). -/
def Obligations.LaunchLoadsAndStarts : Prop :=
  ∀ (c : Params) (l : Listing),
    l.bytes.length < 2 ^ 32 → l.bytes.length ≤ c.maxIn →
    rowBytesOf l.mode l.width.toNat l.pitch.toNat * l.height.toNat ≤ c.maxOut →
    ∃ t, hostExecAll (launchCommands l) (State.resetOf c) = .next t ∧
      t.status = .running ∧ t.p = 0 ∧ t.Loaded ∧ t.inLen.toNat = l.bytes.length ∧
      Mode.ofCode t.mode = some l.mode ∧ t.width = l.width ∧ t.height = l.height ∧ t.pitch = l.pitch ∧
      t.rowBytes = rowBytesOf l.mode l.width.toNat l.pitch.toNat ∧
      t.outLen = rowBytesOf l.mode l.width.toNat l.pitch.toNat * l.height.toNat ∧
      ∀ a (h : a < l.bytes.length), t.inByte a = some l.bytes[a]
end

