-- ==== Sys2Proof/Laws/Memory.lean ====
section
/-! SUPPORT. The laws of the two memories: a read after a write, and the canonical form that every write keeps. -/

namespace Sys2Proof.Machine

theorem Memory.find_put_same (m : Memory) (a : Nat) (b : Byte) : Memory.find (Memory.put m a b) a = some b := by
  induction m with
  | nil => simp [Memory.put, Memory.find]
  | cons c m ih =>
    obtain ⟨k, v⟩ := c
    simp only [Memory.put]
    split
    · simp [Memory.find]
    · split
      · simp [Memory.find]
      · simp [Memory.find, ih]; omega

theorem Memory.find_put_other (m : Memory) {a x : Nat} (b : Byte) (h : x ≠ a) :
    Memory.find (Memory.put m a b) x = Memory.find m x := by
  induction m with
  | nil => simp [Memory.put, Memory.find, h.symm]
  | cons c m ih =>
    obtain ⟨k, v⟩ := c
    simp only [Memory.put]
    split
    · simp [Memory.find, h.symm]
    · split
      · subst a; simp [Memory.find, h.symm]
      · simp [Memory.find, ih]

theorem Memory.find_del_same (m : Memory) (a : Nat) : Memory.find (Memory.del m a) a = none := by
  induction m with
  | nil => simp [Memory.del, Memory.find]
  | cons c m ih =>
    obtain ⟨k, v⟩ := c
    simp only [Memory.del]
    split
    · exact ih
    · simp [Memory.find, *]

theorem Memory.find_del_other (m : Memory) {a x : Nat} (h : x ≠ a) :
    Memory.find (Memory.del m a) x = Memory.find m x := by
  induction m with
  | nil => simp [Memory.del]
  | cons c m ih =>
    obtain ⟨k, v⟩ := c
    simp only [Memory.del]
    split
    · subst k; simp [Memory.find, ih, h.symm]
    · simp [Memory.find, ih]

/-- A read after a write to the same cell gives the byte written. -/
theorem Memory.read_write_same (sp : Space) (m : Memory) (a : Nat) (b : Byte) :
    Memory.read sp (Memory.write sp m a b) a = some b := by
  unfold Memory.write
  split
  · next h => simp [Memory.read, Memory.find_del_same, h]
  · simp [Memory.read, Memory.find_put_same]

/-- A write leaves every other cell alone. -/
theorem Memory.read_write_other (sp : Space) (m : Memory) {a x : Nat} (b : Byte) (h : x ≠ a) :
    Memory.read sp (Memory.write sp m a b) x = Memory.read sp m x := by
  unfold Memory.write
  split
  · simp only [Memory.read, Memory.find_del_other m h]
  · simp only [Memory.read, Memory.find_put_other m b h]

/-! ### What a write lists -/

theorem Memory.mem_put {m : Memory} {a : Nat} {b : Byte} {c : Host.Cell} (h : c ∈ Memory.put m a b) :
    c = (a, b) ∨ c ∈ m := by
  induction m with
  | nil => simpa [Memory.put] using h
  | cons x m ih =>
    obtain ⟨k, v⟩ := x
    simp only [Memory.put] at h
    split at h
    · simpa using h
    · split at h
      · simp only [List.mem_cons] at h ⊢; tauto
      · simp only [List.mem_cons] at h ⊢; tauto

theorem Memory.mem_del {m : Memory} {a : Nat} {c : Host.Cell} (h : c ∈ Memory.del m a) : c ∈ m := by
  induction m with
  | nil => simp [Memory.del] at h
  | cons x m ih =>
    obtain ⟨k, v⟩ := x
    simp only [Memory.del] at h
    split at h
    · exact List.mem_cons_of_mem _ (ih h)
    · simp only [List.mem_cons] at h ⊢; tauto

theorem Memory.mem_write {sp : Space} {m : Memory} {a : Nat} {b : Byte} {c : Host.Cell}
    (h : c ∈ Memory.write sp m a b) : c = (a, b) ∨ c ∈ m := by
  unfold Memory.write at h
  split at h
  · exact .inr (Memory.mem_del h)
  · exact Memory.mem_put h

/-! ### The canonical form -/

theorem Memory.wf_nil (sp : Space) : Memory.wf sp [] := by simp [Memory.wf]

/-- Both memories are in canonical form after reset. -/
theorem State.resetOf_wf (c : Params) : Memory.wf .input (State.resetOf c).S ∧ Memory.wf .output (State.resetOf c).D :=
  ⟨Memory.wf_nil _, Memory.wf_nil _⟩

theorem Memory.rising_put {m : Memory} (a : Nat) (b : Byte) (h : (m.map Prod.fst).Pairwise (· < ·)) :
    ((Memory.put m a b).map Prod.fst).Pairwise (· < ·) := by
  induction m with
  | nil => simp [Memory.put]
  | cons x m ih =>
    obtain ⟨k, v⟩ := x
    simp only [List.map_cons, List.pairwise_cons] at h
    have key : ∀ y ∈ (Memory.put m a b).map Prod.fst, y = a ∨ y ∈ m.map Prod.fst := by
      intro y hy
      obtain ⟨c, hc, rfl⟩ := List.mem_map.1 hy
      rcases Memory.mem_put hc with rfl | hc
      · exact .inl rfl
      · exact .inr (List.mem_map.2 ⟨c, hc, rfl⟩)
    simp only [Memory.put]
    split
    · next hlt =>
      simp only [List.map_cons, List.pairwise_cons, List.mem_cons]
      refine ⟨?_, h⟩
      rintro y (rfl | hy)
      · exact hlt
      · exact hlt.trans (h.1 y hy)
    · split
      · subst a; simpa using h
      · simp only [List.map_cons, List.pairwise_cons]
        refine ⟨fun y hy => ?_, ih h.2⟩
        rcases key y hy with rfl | hy
        · omega
        · exact h.1 y hy

theorem Memory.rising_del {m : Memory} (a : Nat) (h : (m.map Prod.fst).Pairwise (· < ·)) :
    ((Memory.del m a).map Prod.fst).Pairwise (· < ·) := by
  induction m with
  | nil => simp [Memory.del]
  | cons x m ih =>
    obtain ⟨k, v⟩ := x
    simp only [List.map_cons, List.pairwise_cons] at h
    simp only [Memory.del]
    split
    · exact ih h.2
    · simp only [List.map_cons, List.pairwise_cons]
      refine ⟨fun y hy => ?_, ih h.2⟩
      obtain ⟨c, hc, rfl⟩ := List.mem_map.1 hy
      exact h.1 _ (List.mem_map.2 ⟨c, Memory.mem_del hc, rfl⟩)

/-- Every write keeps the canonical form. -/
theorem Memory.wf_write {sp : Space} {m : Memory} (a : Nat) (b : Byte) (h : Memory.wf sp m) :
    Memory.wf sp (Memory.write sp m a b) := by
  unfold Memory.write
  split
  · exact ⟨Memory.rising_del a h.1, fun c hc => h.2 c (Memory.mem_del hc)⟩
  · next hb =>
    refine ⟨Memory.rising_put a b h.1, fun c hc => ?_⟩
    rcases Memory.mem_put hc with rfl | hc
    · exact hb
    · exact h.2 c hc

/-- Loading consecutive bytes keeps the canonical form. -/
theorem Memory.wf_load {sp : Space} {m : Memory} (bs : List Byte) (a : Nat) (h : Memory.wf sp m) :
    Memory.wf sp (Memory.load sp m a bs) := by
  induction bs generalizing a with
  | nil => exact h
  | cons b bs ih => exact Memory.wf_write a b (ih (a + 1))

/-- What a cell reads as after consecutive bytes have been loaded from `a` on. -/
theorem Memory.read_load (sp : Space) (m : Memory) (bs : List Byte) (a x : Nat) :
    Memory.read sp (Memory.load sp m a bs) x =
      if h : a ≤ x ∧ x - a < bs.length then some (bs[x - a]'h.2) else Memory.read sp m x := by
  induction bs generalizing a with
  | nil => simp [Memory.load]
  | cons b bs ih =>
    rw [Memory.load]
    by_cases hx : x = a
    · subst hx
      rw [Memory.read_write_same]
      simp
    · rw [Memory.read_write_other _ _ _ hx, ih]
      by_cases h : a + 1 ≤ x ∧ x - (a + 1) < bs.length
      · have h' : a ≤ x ∧ x - a < (b :: bs).length := by simp only [List.length_cons]; omega
        rw [dif_pos h, dif_pos h']
        have e : x - a = (x - (a + 1)) + 1 := by omega
        simp [e]
      · have h' : ¬ (a ≤ x ∧ x - a < (b :: bs).length) := by simp only [List.length_cons]; omega
        rw [dif_neg h, dif_neg h']

/-- A cell of `D` always holds a byte. -/
theorem Memory.read_output_isSome (m : Memory) (a : Nat) : (Memory.read .output m a).isSome = true := by
  unfold Memory.read
  split <;> rfl

end Sys2Proof.Machine
end

