-- ==== Sys2Proof/Laws/Nibble.lean ====
section
/-! SUPPORT. The nibble primitives (R12), nibble addresses (R25) and extents (R79). -/

namespace Sys2Proof.Machine

/-- The written nibble reads back. -/
theorem nib_putnib_same (old : Byte) (s : Shift) (v : Nibble) : nib (putnib old s v) s = v := by
  cases s <;> (ext i hi; simp [nib, putnib, Shift.code]) <;> interval_cases i <;> simp

/-- The other nibble of the byte is kept. -/
theorem nib_putnib_other (old : Byte) {s t : Shift} (v : Nibble) (h : t ≠ s) : nib (putnib old s v) t = nib old t := by
  cases s <;> cases t <;> first | exact absurd rfl h | skip
  all_goals ext i hi; simp [nib, putnib, Shift.code]; interval_cases i <;> simp

/-- Two nibbles make the byte. -/
theorem byte_ext_nib {a b : Byte} (hh : nib a .high = nib b .high) (hl : nib a .low = nib b .low) : a = b := by
  ext i hi
  have h4 : ∀ j, j < 4 → a.getLsbD (4 + j) = b.getLsbD (4 + j) := fun j hj => by
    have := congrArg (fun x : Nibble => x.getLsbD j) hh
    simpa [nib, Shift.code, hj] using this
  have h0 : ∀ j, j < 4 → a.getLsbD j = b.getLsbD j := fun j hj => by
    have := congrArg (fun x : Nibble => x.getLsbD j) hl
    simpa [nib, Shift.code, hj] using this
  by_cases h : i < 4
  · rw [← BitVec.getLsbD_eq_getElem, ← BitVec.getLsbD_eq_getElem]; exact h0 i h
  · have := h4 (i - 4) (by omega)
    rw [show 4 + (i - 4) = i by omega] at this
    rw [← BitVec.getLsbD_eq_getElem, ← BitVec.getLsbD_eq_getElem]; exact this

theorem npos_div_two (d : Nat) (sh : Shift) : npos d sh / 2 = d := by
  cases sh <;> simp only [npos] <;> omega

theorem ofParity_npos (d : Nat) (sh : Shift) : Shift.ofParity (npos d sh) = sh := by
  cases sh <;> simp [npos, Shift.ofParity]

/-- R25: the pair is the nibble address. -/
theorem npos_ofParity (N : Nat) : npos (N / 2) (Shift.ofParity N) = N := by
  unfold Shift.ofParity
  split <;> simp only [npos] <;> omega

theorem npos_bounds (d : Nat) (sh : Shift) : 2 * d ≤ npos d sh ∧ npos d sh ≤ 2 * d + 1 := by
  cases sh <;> simp [npos]

/-- Each pixel of an extent lies in a byte that `touched` counts. -/
theorem touched_covers (d : Nat) (sh : Shift) (k i : Nat) (h : i < k) :
    (npos d sh + i) / 2 < d + touched d sh k := by
  have := npos_bounds d sh
  unfold touched ceil2
  omega

theorem Shift.drop_ofParity (N : Nat) : Shift.ofParity (N + 1) = (Shift.ofParity N).drop := by
  unfold Shift.ofParity
  rcases Nat.mod_two_eq_zero_or_one N with h | h
  · rw [if_neg (by omega), if_pos h]; rfl
  · rw [if_pos (by omega), if_neg (by omega)]; rfl

end Sys2Proof.Machine
end

