-- ==== Sys2Proof/Laws/State.lean ====
section
/-! SUPPORT. One lemma per field of each named update of the state, true by `rfl`. -/

namespace Sys2Proof.Machine

@[simp] theorem State.halt_params (c : Cause) (s : State) : (s.halt c).params = s.params := rfl
@[simp] theorem State.halt_p (c : Cause) (s : State) : (s.halt c).p = s.p := rfl
@[simp] theorem State.halt_d (c : Cause) (s : State) : (s.halt c).d = s.d := rfl
@[simp] theorem State.halt_line (c : Cause) (s : State) : (s.halt c).line = s.line := rfl
@[simp] theorem State.halt_shift (c : Cause) (s : State) : (s.halt c).shift = s.shift := rfl
@[simp] theorem State.halt_mode (c : Cause) (s : State) : (s.halt c).mode = s.mode := rfl
@[simp] theorem State.halt_width (c : Cause) (s : State) : (s.halt c).width = s.width := rfl
@[simp] theorem State.halt_height (c : Cause) (s : State) : (s.halt c).height = s.height := rfl
@[simp] theorem State.halt_pitch (c : Cause) (s : State) : (s.halt c).pitch = s.pitch := rfl
@[simp] theorem State.halt_inLen (c : Cause) (s : State) : (s.halt c).inLen = s.inLen := rfl
@[simp] theorem State.halt_rowBytes (c : Cause) (s : State) : (s.halt c).rowBytes = s.rowBytes := rfl
@[simp] theorem State.halt_outLen (c : Cause) (s : State) : (s.halt c).outLen = s.outLen := rfl
@[simp] theorem State.halt_status (c : Cause) (s : State) : (s.halt c).status = .done := rfl
@[simp] theorem State.halt_cause (c : Cause) (s : State) : (s.halt c).cause = c := rfl
@[simp] theorem State.halt_S (c : Cause) (s : State) : (s.halt c).S = s.S := rfl
@[simp] theorem State.halt_D (c : Cause) (s : State) : (s.halt c).D = s.D := rfl

@[simp] theorem State.retire_params (n : Nat) (s : State) : (s.retire n).params = s.params := rfl
@[simp] theorem State.retire_p (n : Nat) (s : State) : (s.retire n).p = s.p + n := rfl
@[simp] theorem State.retire_d (n : Nat) (s : State) : (s.retire n).d = s.d := rfl
@[simp] theorem State.retire_line (n : Nat) (s : State) : (s.retire n).line = s.line := rfl
@[simp] theorem State.retire_shift (n : Nat) (s : State) : (s.retire n).shift = s.shift := rfl
@[simp] theorem State.retire_mode (n : Nat) (s : State) : (s.retire n).mode = s.mode := rfl
@[simp] theorem State.retire_width (n : Nat) (s : State) : (s.retire n).width = s.width := rfl
@[simp] theorem State.retire_height (n : Nat) (s : State) : (s.retire n).height = s.height := rfl
@[simp] theorem State.retire_pitch (n : Nat) (s : State) : (s.retire n).pitch = s.pitch := rfl
@[simp] theorem State.retire_inLen (n : Nat) (s : State) : (s.retire n).inLen = s.inLen := rfl
@[simp] theorem State.retire_rowBytes (n : Nat) (s : State) : (s.retire n).rowBytes = s.rowBytes := rfl
@[simp] theorem State.retire_outLen (n : Nat) (s : State) : (s.retire n).outLen = s.outLen := rfl
@[simp] theorem State.retire_status (n : Nat) (s : State) : (s.retire n).status = s.status := rfl
@[simp] theorem State.retire_cause (n : Nat) (s : State) : (s.retire n).cause = s.cause := rfl
@[simp] theorem State.retire_S (n : Nat) (s : State) : (s.retire n).S = s.S := rfl
@[simp] theorem State.retire_D (n : Nat) (s : State) : (s.retire n).D = s.D := rfl

/-! The readers depend on one memory, the bounds on one length. -/

theorem State.outByte_congr {s t : State} (h : t.D = s.D) (a : Nat) : t.outByte a = s.outByte a := by
  simp [State.outByte, h]

theorem State.outNibble_congr {s t : State} (h : t.D = s.D) (N : Nat) : t.outNibble N = s.outNibble N := by
  simp [State.outNibble, State.outByte_congr h]

theorem State.inByte_congr {s t : State} (h : t.S = s.S) (a : Nat) : t.inByte a = s.inByte a := by
  simp [State.inByte, h]

@[simp] theorem State.halt_outByte (c : Cause) (s : State) (a : Nat) : (s.halt c).outByte a = s.outByte a := rfl
@[simp] theorem State.halt_outNibble (c : Cause) (s : State) (a : Nat) : (s.halt c).outNibble a = s.outNibble a := rfl
@[simp] theorem State.halt_inByte (c : Cause) (s : State) (a : Nat) : (s.halt c).inByte a = s.inByte a := rfl
@[simp] theorem State.retire_outByte (n : Nat) (s : State) (a : Nat) : (s.retire n).outByte a = s.outByte a := rfl
@[simp] theorem State.retire_outNibble (n : Nat) (s : State) (a : Nat) : (s.retire n).outNibble a = s.outNibble a := rfl
@[simp] theorem State.retire_inByte (n : Nat) (s : State) (a : Nat) : (s.retire n).inByte a = s.inByte a := rfl

end Sys2Proof.Machine
end

