-- ==== Sys2Proof/Laws/Ops.lean ====
section
/-! SUPPORT. One lemma for each shared operation that says everything it can do: the bounds, the one-byte accesses, the
pixel loops of RUN and ABS, DELTA's operands. -/

namespace Sys2Proof.Machine

/-! ### Bounds (R11) -/

theorem State.canRead_iff (s : State) (a n : Nat) :
    s.canRead a n = true ↔ if s.params.boundStrict then a + n < s.inLen.toNat else a + n ≤ s.inLen.toNat := by
  unfold State.canRead; split <;> simp

theorem State.canWrite_iff (s : State) (a n : Nat) :
    s.canWrite a n = true ↔ if s.params.boundStrict then a + n < s.outLen else a + n ≤ s.outLen := by
  unfold State.canWrite; split <;> simp

theorem State.canMove_iff (s : State) (a : Nat) : s.canMove a = true ↔ a ≤ s.outLen := by simp [State.canMove]

/-- A passed read check bounds the extent by `IN_LEN`, whatever `BOUND_STRICT` says. -/
theorem State.canRead_le {s : State} {a n : Nat} (h : s.canRead a n = true) : a + n ≤ s.inLen.toNat := by
  rw [State.canRead_iff] at h; split at h <;> omega

/-- A passed write check bounds the extent by `OUT_LEN`. -/
theorem State.canWrite_le {s : State} {a n : Nat} (h : s.canWrite a n = true) : a + n ≤ s.outLen := by
  rw [State.canWrite_iff] at h; split at h <;> omega

/-- A check passes for every extent that ends no later than one that passes. -/
theorem State.canRead_mono {s : State} {a n b m : Nat} (h : s.canRead a n = true) (hb : b + m ≤ a + n) :
    s.canRead b m = true := by
  rw [State.canRead_iff] at h ⊢; split at h <;> simp_all <;> omega

theorem State.canRead_congr {s t : State} (hp : t.params = s.params) (hl : t.inLen = s.inLen) (a n : Nat) :
    t.canRead a n = s.canRead a n := by simp [State.canRead, hp, hl]

theorem State.canWrite_congr {s t : State} (hp : t.params = s.params) (hl : t.outLen = s.outLen) (a n : Nat) :
    t.canWrite a n = s.canWrite a n := by simp [State.canWrite, hp, hl]

/-! ### One-byte accesses -/

theorem State.readInput_ok {s : State} {a : Nat} {b : Byte} (h : a < s.inLen.toNat) (hb : s.inByte a = some b) :
    s.readInput a = .ok b := by simp [State.readInput, h, hb]

/-- A read inside `S` gives the byte, or finds the cell unloaded. -/
theorem State.readInput_cases {s : State} {a : Nat} (h : a < s.inLen.toNat) :
    (∃ b, s.inByte a = some b ∧ s.readInput a = .ok b) ∨
      (s.inByte a = none ∧ s.readInput a = .error .inputUnloaded) := by
  cases hb : s.inByte a with
  | none => exact .inr ⟨rfl, by simp [State.readInput, h, hb]⟩
  | some b => exact .inl ⟨b, rfl, State.readInput_ok h hb⟩

theorem State.writeInput_ok {s : State} {a : Nat} (b : Byte) (h : a < s.inLen.toNat) :
    s.writeInput a b = .ok { s with S := Memory.write .input s.S a b } := by simp [State.writeInput, h]

theorem State.readOutput_ok {s : State} {a : Nat} (h : a < s.outLen) : s.readOutput a = .ok (s.outByte a) := by
  simp [State.readOutput, h]

theorem State.writeOutput_ok {s : State} {a : Nat} (b : Byte) (h : a < s.outLen) :
    s.writeOutput a b = .ok { s with D := Memory.write .output s.D a b } := by simp [State.writeOutput, h]

/-- What `D` reads as after a write of one byte. -/
theorem outByte_write (s : State) (a : Nat) (b : Byte) (x : Nat) :
    ({ s with D := Memory.write .output s.D a b } : State).outByte x = if x = a then b else s.outByte x := by
  unfold State.outByte
  split
  · next h => subst h; simp [Memory.read_write_same]
  · next h => simp [Memory.read_write_other _ _ _ h]

/-- What `S` reads as after a write of one byte. -/
theorem inByte_write (s : State) (a : Nat) (b : Byte) (x : Nat) :
    ({ s with S := Memory.write .input s.S a b } : State).inByte x = if x = a then some b else s.inByte x := by
  unfold State.inByte
  split
  · next h => subst h; simp [Memory.read_write_same]
  · next h => simp [Memory.read_write_other _ _ _ h]

/-- `D'` is in canonical form and lists only cells below `n` if `D` is and does. -/
def KeepsForm (n : Nat) (D D' : Memory) : Prop :=
  (Memory.wf .output D → Memory.wf .output D') ∧ ((∀ c ∈ D, c.1 < n) → ∀ c ∈ D', c.1 < n)

theorem KeepsForm.refl (n : Nat) (D : Memory) : KeepsForm n D D := ⟨id, id⟩

theorem KeepsForm.trans {n : Nat} {D E F : Memory} (h : KeepsForm n D E) (g : KeepsForm n E F) : KeepsForm n D F :=
  ⟨g.1 ∘ h.1, g.2 ∘ h.2⟩

theorem KeepsForm.write {n a : Nat} (D : Memory) (b : Byte) (h : a < n) :
    KeepsForm n D (Memory.write .output D a b) := by
  refine ⟨Memory.wf_write a b, fun hD c hc => ?_⟩
  rcases Memory.mem_write hc with rfl | hc
  · exact h
  · exact hD c hc

/-- The nibbles of a byte of `D` are those at its two nibble addresses (R25). -/
theorem State.outNibble_even (s : State) (a : Nat) : s.outNibble (2 * a) = nib (s.outByte a) .high := by
  simp [State.outNibble, Shift.ofParity]

theorem State.outNibble_odd (s : State) (a : Nat) : s.outNibble (2 * a + 1) = nib (s.outByte a) .low := by
  have h : (2 * a + 1) / 2 = a := by omega
  simp [State.outNibble, Shift.ofParity, h]

/-! ### The RLE8 pixel loops -/

/-- A fill inside `D` writes `v` to each of its cells and changes nothing else. -/
theorem fillBytes_spec (s : State) (a : Nat) (v : Byte) (k : Nat) (h : a + k ≤ s.outLen) :
    ∃ D', s.fillBytes a v k = .ok { s with D := D' } ∧ KeepsForm s.outLen s.D D' ∧
      ∀ x, ({ s with D := D' } : State).outByte x = if a ≤ x ∧ x < a + k then v else s.outByte x := by
  induction k with
  | zero =>
    refine ⟨s.D, rfl, KeepsForm.refl _ _, fun x => ?_⟩
    rw [if_neg (by omega)]
  | succ k ih =>
    obtain ⟨D', hf, hk, hx⟩ := ih (by omega)
    have hlt : a + k < ({ s with D := D' } : State).outLen := by simp; omega
    refine ⟨_, ?_, hk.trans (KeepsForm.write D' v hlt), fun x => ?_⟩
    · rw [State.fillBytes, hf]
      exact State.writeOutput_ok v hlt
    · have e := outByte_write { s with D := D' } (a + k) v x
      simp only at e
      rw [e, hx]
      by_cases h1 : x = a + k
      · rw [if_pos h1, if_pos (by omega)]
      · rw [if_neg h1]
        by_cases h2 : a ≤ x ∧ x < a + k
        · rw [if_pos h2, if_pos (by omega)]
        · rw [if_neg h2, if_neg (by omega)]

/-- A copy whose extents are inside `S` and `D` copies the bytes and changes nothing else, or finds a cell unloaded. -/
theorem copyBytes_spec (s : State) (q a : Nat) (k : Nat) (hq : q + k ≤ s.inLen.toNat) (ha : a + k ≤ s.outLen) :
    (∃ D', s.copyBytes q a k = .ok { s with D := D' } ∧ KeepsForm s.outLen s.D D' ∧
      ∀ x, ({ s with D := D' } : State).outByte x =
        if a ≤ x ∧ x < a + k then (s.inByte (q + (x - a))).getD 0 else s.outByte x) ∨
    (s.copyBytes q a k = .error .inputUnloaded ∧ ∃ i, i < k ∧ s.inByte (q + i) = none) := by
  induction k with
  | zero =>
    refine .inl ⟨s.D, rfl, KeepsForm.refl _ _, fun x => ?_⟩
    rw [if_neg (by omega)]
  | succ k ih =>
    rcases ih (by omega) (by omega) with ⟨D', hf, hk, hx⟩ | ⟨hf, i, hi, hn⟩
    · have hlt : a + k < ({ s with D := D' } : State).outLen := by simp; omega
      have hlq : q + k < ({ s with D := D' } : State).inLen.toNat := by simp; omega
      rcases State.readInput_cases hlq with ⟨b, hb, hr⟩ | ⟨hb, hr⟩
      · refine .inl ⟨_, ?_, hk.trans (KeepsForm.write D' b hlt), fun x => ?_⟩
        · rw [State.copyBytes, hf]
          simp only [hr]
          exact State.writeOutput_ok b hlt
        · have e := outByte_write { s with D := D' } (a + k) b x
          simp only at e
          rw [e, hx]
          by_cases h1 : x = a + k
          · have hb' : s.inByte (q + k) = some b := hb
            rw [if_pos h1, if_pos (by omega), h1, show q + (a + k - a) = q + k by omega, hb']
            rfl
          · rw [if_neg h1]
            by_cases h2 : a ≤ x ∧ x < a + k
            · rw [if_pos h2, if_pos (by omega)]
            · rw [if_neg h2, if_neg (by omega)]
      · refine .inr ⟨?_, k, by omega, hb⟩
        rw [State.copyBytes, hf]
        simp only [hr]
    · exact .inr ⟨by rw [State.copyBytes, hf], i, by omega, hn⟩

/-! ### The RLE4 pixel loops -/

/-- The state whose output position is the nibble address `N` (R25). -/
def State.atNibble (s : State) (N : Nat) : State := { s with d := N / 2, shift := Shift.ofParity N }

theorem State.atNibble_self (s : State) : s.atNibble (npos s.d s.shift) = s := by
  simp [State.atNibble, npos_div_two, ofParity_npos]

/-- `emit` inside `D` writes one nibble, keeps every other, and steps the position by one (R80). -/
theorem emit_spec (s : State) (c : Nibble) (h : s.d < s.outLen) :
    ∃ D', s.emit c = .ok (({ s with D := D' } : State).atNibble (npos s.d s.shift + 1)) ∧
      KeepsForm s.outLen s.D D' ∧
      ∀ M, ({ s with D := D' } : State).outNibble M = if M = npos s.d s.shift then c else s.outNibble M := by
  refine ⟨Memory.write .output s.D s.d (putnib (s.outByte s.d) s.shift c), ?_, KeepsForm.write _ _ h, fun M => ?_⟩
  · rw [State.emit, State.readOutput_ok h]
    simp only [State.writeOutput_ok _ h]
    cases hs : s.shift
    · simp [State.atNibble, npos, Shift.ofParity]; omega
    · have e : npos s.d .low + 1 = 2 * (s.d + 1) := by simp only [npos]; omega
      simp [State.atNibble, Shift.ofParity, e]
  · unfold State.outNibble
    rw [outByte_write]
    by_cases hd : M / 2 = s.d
    · rw [if_pos hd]
      by_cases hM : M = npos s.d s.shift
      · rw [if_pos hM, hM, ofParity_npos, nib_putnib_same]
      · rw [if_neg hM, nib_putnib_other _ _ (fun e => hM ?_), hd]
        rw [← e, ← hd, npos_ofParity]
    · rw [if_neg hd, if_neg]
      rintro rfl
      exact hd (npos_div_two _ _)

@[simp] theorem State.atNibble_outNibble (s : State) (N M : Nat) : (s.atNibble N).outNibble M = s.outNibble M := rfl

/-- An RLE4 run whose pixels are all inside `D` gives each nibble position it covers the same-position nibble of `v`, keeps
every other nibble, and steps the position by `k` (R84, R89). -/
theorem emitRun_spec (s : State) (v : Byte) (k : Nat) (h : ∀ i, i < k → (npos s.d s.shift + i) / 2 < s.outLen) :
    ∃ D', s.emitRun v k = .ok (({ s with D := D' } : State).atNibble (npos s.d s.shift + k)) ∧
      KeepsForm s.outLen s.D D' ∧
      ∀ M, ({ s with D := D' } : State).outNibble M =
        if npos s.d s.shift ≤ M ∧ M < npos s.d s.shift + k then nib v (Shift.ofParity M) else s.outNibble M := by
  induction k with
  | zero =>
    refine ⟨s.D, ?_, KeepsForm.refl _ _, fun M => ?_⟩
    · exact congrArg _ (State.atNibble_self s).symm
    · rw [if_neg (by omega)]
  | succ k ih =>
    obtain ⟨D', hf, hk, hx⟩ := ih fun i hi => h i (by omega)
    have hd := h k (by omega)
    obtain ⟨D'', he, hk', hx'⟩ :=
      emit_spec (({ s with D := D' } : State).atNibble (npos s.d s.shift + k))
        (nib v (({ s with D := D' } : State).atNibble (npos s.d s.shift + k)).shift) hd
    have hN : npos (({ s with D := D' } : State).atNibble (npos s.d s.shift + k)).d
        (({ s with D := D' } : State).atNibble (npos s.d s.shift + k)).shift = npos s.d s.shift + k := npos_ofParity _
    rw [hN] at he hx'
    refine ⟨D'', ?_, hk.trans hk', fun M => ?_⟩
    · rw [State.emitRun, hf]; exact he
    · have e := hx' M
      have e2 : ({ s with D := D'' } : State).outNibble M = _ := e
      rw [e2]
      by_cases h1 : M = npos s.d s.shift + k
      · rw [if_pos h1, if_pos (by omega), h1]; rfl
      · rw [if_neg h1]
        have e3 := hx M
        have e4 : (({ s with D := D' } : State).atNibble (npos s.d s.shift + k)).outNibble M = _ := e3
        rw [e4]
        by_cases h2 : npos s.d s.shift ≤ M ∧ M < npos s.d s.shift + k
        · rw [if_pos h2, if_pos (by omega)]
        · rw [if_neg h2, if_neg (by omega)]

end Sys2Proof.Machine
end

