-- ==== Sys2Proof/Laws/Abs.lean ====
section
/-! SUPPORT. The pixel loop of an RLE4 ABS (R82, R83, R88): what it writes and where its read side ends, for `pointer` and
`aligned`, which move the read offset, and for `value`, which increments the byte under it. -/

namespace Sys2Proof.Machine

/-- The read side after `k` pixels that started at the high nibble of `S[q]`, with the offset moving on underflow. -/
theorem absRead_step_offset (q k : Nat) :
    (if Shift.ofParity k = .low then q + k / 2 + 1 else q + k / 2) = q + (k + 1) / 2 := by
  unfold Shift.ofParity
  rcases Nat.mod_two_eq_zero_or_one k with h | h
  · rw [if_pos h]; simp; omega
  · rw [if_neg (by omega : ¬ k % 2 = 0)]; simp; omega

/-- One pixel when the read offset moves on underflow: `S` is untouched. -/
theorem pixel_moving (r : AbsRead) (hv : r.state.params.abs4 ≠ .value) (hq : r.q < r.state.inLen.toNat)
    (hd : r.state.d < r.state.outLen) :
    (∃ b D', r.state.inByte r.q = some b ∧
      r.pixel = .ok
        { state := ({ r.state with D := D' } : State).atNibble (npos r.state.d r.state.shift + 1)
          q := if r.rs = .low then r.q + 1 else r.q
          rs := r.rs.drop } ∧
      KeepsForm r.state.outLen r.state.D D' ∧
      ∀ M, ({ r.state with D := D' } : State).outNibble M =
        if M = npos r.state.d r.state.shift then nib b r.rs else r.state.outNibble M) ∨
    (r.pixel = .error .inputUnloaded ∧ r.state.inByte r.q = none) := by
  rcases State.readInput_cases hq with ⟨b, hb, hr⟩ | ⟨hb, hr⟩
  · obtain ⟨D', he, hk, hx⟩ := emit_spec r.state (nib b r.rs) hd
    refine .inl ⟨b, D', hb, ?_, hk, hx⟩
    unfold AbsRead.pixel
    simp only [hr]
    obtain ⟨s, q, rs⟩ := r
    cases rs
    · simp only [AbsRead.advance, he]
      simp [Shift.drop]
    · simp only at hv
      cases ha : s.params.abs4 <;> simp_all [AbsRead.advance, Shift.drop]
  · exact .inr ⟨by simp only [AbsRead.pixel, hr], hb⟩

/-- `k` pixels under `pointer` and `aligned`, when the data they read is inside `S` and the positions they write are
inside `D`: pixel `i` is nibble `i` of the data, the read offset ends `k / 2` bytes on, and nothing but `D` and the position
changes; or a data cell is unloaded. -/
theorem pixels_moving (s : State) (q k : Nat) (hv : s.params.abs4 ≠ .value)
    (hq : ∀ i, i < k → q + i / 2 < s.inLen.toNat)
    (hd : ∀ i, i < k → (npos s.d s.shift + i) / 2 < s.outLen) :
    (∃ D', AbsRead.pixels ⟨s, q, .high⟩ k = .ok
        ⟨({ s with D := D' } : State).atNibble (npos s.d s.shift + k), q + k / 2, Shift.ofParity k⟩ ∧
      (∀ i, i < k → (s.inByte (q + i / 2)).isSome = true) ∧
      KeepsForm s.outLen s.D D' ∧
      ∀ M, ({ s with D := D' } : State).outNibble M =
        if npos s.d s.shift ≤ M ∧ M < npos s.d s.shift + k then
          nib ((s.inByte (q + (M - npos s.d s.shift) / 2)).getD 0) (Shift.ofParity (M - npos s.d s.shift))
        else s.outNibble M) ∨
    (AbsRead.pixels ⟨s, q, .high⟩ k = .error .inputUnloaded ∧ ∃ i, i < k ∧ s.inByte (q + i / 2) = none) := by
  induction k with
  | zero =>
    refine .inl ⟨s.D, ?_, fun i hi => absurd hi (by omega), KeepsForm.refl _ _, fun M => ?_⟩
    · simp only [AbsRead.pixels]
      exact congrArg (fun t => Except.ok (AbsRead.mk t q .high)) (State.atNibble_self s).symm
    · rw [if_neg (by omega)]
  | succ k ih =>
    rcases ih (fun i hi => hq i (by omega)) (fun i hi => hd i (by omega)) with ⟨D', hf, hl, hk, hx⟩ | ⟨hf, i, hi, hn⟩
    · have key := pixel_moving
        ⟨({ s with D := D' } : State).atNibble (npos s.d s.shift + k), q + k / 2, Shift.ofParity k⟩ hv
        (hq k (by omega)) (hd k (by omega))
      have hN : npos (({ s with D := D' } : State).atNibble (npos s.d s.shift + k)).d
          (({ s with D := D' } : State).atNibble (npos s.d s.shift + k)).shift = npos s.d s.shift + k := npos_ofParity _
      simp only [hN] at key
      rcases key with ⟨b, D'', hb, hp, hk', hx'⟩ | ⟨hp, hb⟩
      · refine .inl ⟨D'', ?_, fun i hi => ?_, hk.trans hk', fun M => ?_⟩
        · rw [AbsRead.pixels, hf]
          simp only [hp, absRead_step_offset, ← Shift.drop_ofParity]
          rfl
        · rcases Nat.lt_succ_iff_lt_or_eq.1 hi with h | rfl
          · exact hl i h
          · have hb' : s.inByte (q + i / 2) = some b := hb
            simp [hb']
        · have e2 : ({ s with D := D'' } : State).outNibble M = _ := hx' M
          rw [e2]
          by_cases h1 : M = npos s.d s.shift + k
          · have hb' : s.inByte (q + k / 2) = some b := hb
            rw [if_pos h1, if_pos (by omega), h1, Nat.add_sub_cancel_left, hb']
            rfl
          · rw [if_neg h1]
            have e4 : (({ s with D := D' } : State).atNibble (npos s.d s.shift + k)).outNibble M = _ := hx M
            rw [e4]
            by_cases h2 : npos s.d s.shift ≤ M ∧ M < npos s.d s.shift + k
            · rw [if_pos h2, if_pos (by omega)]
            · rw [if_neg h2, if_neg (by omega)]
      · refine .inr ⟨?_, k, by omega, hb⟩
        rw [AbsRead.pixels, hf]
        exact hp
    · exact .inr ⟨by rw [AbsRead.pixels, hf], i, by omega, hn⟩

/-- One pixel under `value`: on underflow the byte at `q` is incremented and `q` stays. -/
theorem pixel_value (r : AbsRead) (b : Byte) (hv : r.state.params.abs4 = .value) (hq : r.q < r.state.inLen.toNat)
    (hb : r.state.inByte r.q = some b) (hd : r.state.d < r.state.outLen) :
    ∃ S' D', r.pixel = .ok
        { state := ({ r.state with S := S', D := D' } : State).atNibble (npos r.state.d r.state.shift + 1)
          q := r.q
          rs := r.rs.drop } ∧
      (Memory.wf .input r.state.S → Memory.wf .input S') ∧
      (∀ x, ({ r.state with S := S' } : State).inByte x =
        if x = r.q then some (if r.rs = .low then b + 1 else b) else r.state.inByte x) ∧
      KeepsForm r.state.outLen r.state.D D' ∧
      ∀ M, ({ r.state with D := D' } : State).outNibble M =
        if M = npos r.state.d r.state.shift then nib b r.rs else r.state.outNibble M := by
  obtain ⟨s, q, rs⟩ := r
  have hr : s.readInput q = .ok b := State.readInput_ok hq hb
  cases rs
  · obtain ⟨D', he, hk, hx⟩ := emit_spec s (nib b .high) hd
    refine ⟨s.S, D', ?_, id, fun x => ?_, hk, hx⟩
    · simp only [AbsRead.pixel, hr, AbsRead.advance, he, Shift.drop]
    · by_cases h : x = q
      · rw [if_pos h, h]; exact hb
      · rw [if_neg h]
  · obtain ⟨D', he, hk, hx⟩ := emit_spec { s with S := Memory.write .input s.S q (b + 1) } (nib b .low) hd
    refine ⟨Memory.write .input s.S q (b + 1), D', ?_, Memory.wf_write _ _, fun x => ?_, hk, hx⟩
    · simp only at hv
      simp only [AbsRead.pixel, hr, AbsRead.advance, hv, State.writeInput_ok _ hq, he, Shift.drop]
    · exact inByte_write s q (b + 1) x

/-- `k` pixels under `value`, when the one data byte is inside `S` and loaded: the pixels count up from it, two to a
value, it ends incremented `k / 2` times, and the read offset has not moved (R83). -/
theorem pixels_value (s : State) (q k : Nat) (b : Byte) (hv : s.params.abs4 = .value) (hq : q < s.inLen.toNat)
    (hb : s.inByte q = some b) (hd : ∀ i, i < k → (npos s.d s.shift + i) / 2 < s.outLen) :
    ∃ S' D', AbsRead.pixels ⟨s, q, .high⟩ k = .ok
        ⟨({ s with S := S', D := D' } : State).atNibble (npos s.d s.shift + k), q, Shift.ofParity k⟩ ∧
      (Memory.wf .input s.S → Memory.wf .input S') ∧
      (∀ x, ({ s with S := S' } : State).inByte x =
        if x = q then some (b + BitVec.ofNat 8 (k / 2)) else s.inByte x) ∧
      KeepsForm s.outLen s.D D' ∧
      ∀ M, ({ s with D := D' } : State).outNibble M =
        if npos s.d s.shift ≤ M ∧ M < npos s.d s.shift + k then
          nib (b + BitVec.ofNat 8 ((M - npos s.d s.shift) / 2)) (Shift.ofParity (M - npos s.d s.shift))
        else s.outNibble M := by
  induction k with
  | zero =>
    refine ⟨s.S, s.D, ?_, id, fun x => ?_, KeepsForm.refl _ _, fun M => ?_⟩
    · simp only [AbsRead.pixels]
      exact congrArg (fun t => Except.ok (AbsRead.mk t q .high)) (State.atNibble_self s).symm
    · by_cases h : x = q
      · rw [if_pos h, h]; simpa using hb
      · rw [if_neg h]
    · rw [if_neg (by omega)]
  | succ k ih =>
    obtain ⟨S', D', hf, hw, hi, hk, hx⟩ := ih fun i hi => hd i (by omega)
    have hb' : (({ s with S := S', D := D' } : State).atNibble (npos s.d s.shift + k)).inByte q =
        some (b + BitVec.ofNat 8 (k / 2)) := by
      have e : (({ s with S := S', D := D' } : State).atNibble (npos s.d s.shift + k)).inByte q = _ := hi q
      rw [e, if_pos rfl]
    obtain ⟨S'', D'', hp, hw', hi', hk', hx'⟩ := pixel_value
      ⟨({ s with S := S', D := D' } : State).atNibble (npos s.d s.shift + k), q, Shift.ofParity k⟩
      (b + BitVec.ofNat 8 (k / 2)) hv hq hb' (hd k (by omega))
    have hN : npos (({ s with S := S', D := D' } : State).atNibble (npos s.d s.shift + k)).d
        (({ s with S := S', D := D' } : State).atNibble (npos s.d s.shift + k)).shift = npos s.d s.shift + k :=
      npos_ofParity _
    simp only [hN] at hp hx'
    refine ⟨S'', D'', ?_, hw' ∘ hw, fun x => ?_, hk.trans hk', fun M => ?_⟩
    · rw [AbsRead.pixels, hf]
      simp only [hp, ← Shift.drop_ofParity]
      rfl
    · have e : ({ s with S := S'' } : State).inByte x = _ := hi' x
      rw [e]
      by_cases h : x = q
      · rw [if_pos h, if_pos h]
        unfold Shift.ofParity
        rcases Nat.mod_two_eq_zero_or_one k with hk2 | hk2
        · rw [if_pos hk2, show (k + 1) / 2 = k / 2 by omega]; simp
        · rw [if_neg (by omega : ¬ k % 2 = 0), show (k + 1) / 2 = k / 2 + 1 by omega]
          simp [BitVec.ofNat_add, BitVec.add_assoc]
      · rw [if_neg h, if_neg h]
        have e2 : (({ s with S := S', D := D' } : State).atNibble (npos s.d s.shift + k)).inByte x = _ := hi x
        rw [e2, if_neg h]
    · have e2 : ({ s with D := D'' } : State).outNibble M = _ := hx' M
      rw [e2]
      by_cases h1 : M = npos s.d s.shift + k
      · rw [if_pos h1, if_pos (by omega), h1, Nat.add_sub_cancel_left]
      · rw [if_neg h1]
        have e4 : (({ s with S := S', D := D' } : State).atNibble (npos s.d s.shift + k)).outNibble M = _ := hx M
        rw [e4]
        by_cases h2 : npos s.d s.shift ≤ M ∧ M < npos s.d s.shift + k
        · rw [if_pos h2, if_pos (by omega)]
        · rw [if_neg h2, if_neg (by omega)]

end Sys2Proof.Machine
end

