-- ==== Sys2Proof/Laws/Host.lean ====
section
/-! SUPPORT. What the host's commands can do. -/

namespace Sys2Proof.Machine

/-- The code of a personality selects it (R5, R18). -/
@[simp] theorem Mode.ofCode_code (m : Mode) : Mode.ofCode m.code = some m := by cases m <;> rfl

/-- A host write that is not refused was made by a block that does not run (R43). -/
theorem State.hostWrite_cases {s t u : State} (h : s.hostWrite u = .next t) : s.status ≠ .running ∧ t = u := by
  unfold State.hostWrite at h
  cases hs : s.status <;> simp only [hs] at h <;> cases h <;> simp

/-- R8: what a legal configuration is. -/
theorem State.legalMode_spec {s : State} {m : Mode} (h : s.legalMode = some m) :
    Mode.ofCode s.mode = some m ∧ s.newOutLen m ≤ s.params.maxOut ∧ s.inLen.toNat ≤ s.params.maxIn := by
  unfold State.legalMode at h
  split at h
  · cases h
  · next m' hm =>
    split at h
    · next hc => cases h; exact ⟨hm, hc⟩
    · cases h

/-- A START that is not refused found a block that does not run under a legal configuration (R61). -/
theorem State.start_cases {s t : State} (h : s.start = .next t) :
    s.status ≠ .running ∧ ∃ m, s.legalMode = some m ∧ t = s.started m := by
  unfold State.start at h
  cases hs : s.status <;> simp only [hs] at h
  · cases hl : s.legalMode <;> simp only [hl] at h <;> cases h; exact ⟨by simp, _, rfl, rfl⟩
  · cases h
  · cases hl : s.legalMode <;> simp only [hl] at h <;> cases h; exact ⟨by simp, _, rfl, rfl⟩

end Sys2Proof.Machine
end

