-- ==== Sys2Proof/Laws/PerInstr.lean ====
section
/-! SUPPORT. Facts about each instruction as syntax, one lemma per constructor. -/

/-- R47: the head of a well-formed command is two bytes, and the first of them is 0 exactly when the command is an escape. -/
def Sys2Proof.Laws.HeadForm.Statement (i : Sys2Proof.Instr) : Prop :=
  i.wf = true → ∃ b0 b1, Sys2Proof.encode i = [b0, b1] ∧
    (b0 = 0 ↔ ∀ count v, i ≠ .rle8Run count v ∧ i ≠ .rle4Run count v)

theorem Sys2Proof.Laws.HeadForm.rle8Run (count v : Sys2Proof.Byte) :
    Sys2Proof.Laws.HeadForm.Statement (.rle8Run count v) := fun h =>
  ⟨count, v, rfl, by simpa [Sys2Proof.Instr.wf, Sys2Proof.runCountOk] using h⟩

theorem Sys2Proof.Laws.HeadForm.rle8Eol : Sys2Proof.Laws.HeadForm.Statement .rle8Eol := fun _ =>
  ⟨0, 0, rfl, by simp⟩

theorem Sys2Proof.Laws.HeadForm.rle8Eob : Sys2Proof.Laws.HeadForm.Statement .rle8Eob := fun _ =>
  ⟨0, 1, rfl, by simp⟩

theorem Sys2Proof.Laws.HeadForm.rle8Delta : Sys2Proof.Laws.HeadForm.Statement .rle8Delta := fun _ =>
  ⟨0, 2, rfl, by simp⟩

theorem Sys2Proof.Laws.HeadForm.rle8Abs (n : Sys2Proof.Byte) :
    Sys2Proof.Laws.HeadForm.Statement (.rle8Abs n) := fun _ => ⟨0, n, rfl, by simp⟩

theorem Sys2Proof.Laws.HeadForm.rle4Run (count v : Sys2Proof.Byte) :
    Sys2Proof.Laws.HeadForm.Statement (.rle4Run count v) := fun h =>
  ⟨count, v, rfl, by simpa [Sys2Proof.Instr.wf, Sys2Proof.runCountOk] using h⟩

theorem Sys2Proof.Laws.HeadForm.rle4Eol : Sys2Proof.Laws.HeadForm.Statement .rle4Eol := fun _ =>
  ⟨0, 0, rfl, by simp⟩

theorem Sys2Proof.Laws.HeadForm.rle4Eob : Sys2Proof.Laws.HeadForm.Statement .rle4Eob := fun _ =>
  ⟨0, 1, rfl, by simp⟩

theorem Sys2Proof.Laws.HeadForm.rle4Delta : Sys2Proof.Laws.HeadForm.Statement .rle4Delta := fun _ =>
  ⟨0, 2, rfl, by simp⟩

theorem Sys2Proof.Laws.HeadForm.rle4Abs (n : Sys2Proof.Byte) :
    Sys2Proof.Laws.HeadForm.Statement (.rle4Abs n) := fun _ => ⟨0, n, rfl, by simp⟩
end

