-- ==== Sys2Proof/Laws/Step.lean ====
section
/-! SUPPORT. What a step can do: one inversion lemma for the fetch, for the step, and for the operations that end a command. -/

namespace Sys2Proof.Machine

/-- Everything the fetch can end in (R62). -/
theorem State.fetch_cases (s : State) :
    (s.fetch = .halted .oobIn ∧ (¬ s.p < s.inLen.toNat ∨
      (s.canRead (s.p + 1) 1 = false ∧ ¬ (s.params.haltOutFull = true ∧ ¬ s.d < s.outLen)))) ∨
    (s.fetch = .halted .outFull ∧ s.p < s.inLen.toNat ∧ s.params.haltOutFull = true ∧ ¬ s.d < s.outLen) ∨
    (s.fetch = .stopped .inputUnloaded ∧ s.p < s.inLen.toNat ∧
      ¬ (s.params.haltOutFull = true ∧ ¬ s.d < s.outLen) ∧
      (s.inByte s.p = none ∨ (s.canRead (s.p + 1) 1 = true ∧ s.inByte (s.p + 1) = none))) ∨
    (∃ b0 b1, s.fetch = .head b0 b1 ∧ s.p < s.inLen.toNat ∧
      ¬ (s.params.haltOutFull = true ∧ ¬ s.d < s.outLen) ∧
      s.canRead (s.p + 1) 1 = true ∧ s.inByte s.p = some b0 ∧ s.inByte (s.p + 1) = some b1) := by
  by_cases hp : s.p < s.inLen.toNat
  · by_cases hf : s.params.haltOutFull = true ∧ ¬ s.d < s.outLen
    · exact .inr (.inl ⟨by simp [State.fetch, hp, hf], hp, hf.1, hf.2⟩)
    · have h1 : s.fetch = match s.readInput s.p with
          | .error f => .stopped f
          | .ok b0 => if s.canRead (s.p + 1) 1 then
              match s.readInput (s.p + 1) with
              | .error f => .stopped f
              | .ok b1 => .head b0 b1
            else .halted .oobIn := by
        unfold State.fetch
        exact (if_neg (not_not.2 hp)).trans (if_neg hf)
      rcases State.readInput_cases hp with ⟨b0, hb, hr⟩ | ⟨hb, hr⟩
      · by_cases hc : s.canRead (s.p + 1) 1 = true
        · have hp1 : s.p + 1 < s.inLen.toNat := by have := State.canRead_le hc; omega
          rcases State.readInput_cases hp1 with ⟨b1, hb1, hr1⟩ | ⟨hb1, hr1⟩
          · exact .inr (.inr (.inr ⟨b0, b1, by rw [h1]; simp [hr, hc, hr1], hp, hf, hc, hb, hb1⟩))
          · exact .inr (.inr (.inl ⟨by rw [h1]; simp [hr, hc, hr1], hp, hf, .inr ⟨hc, hb1⟩⟩))
        · have hc' : s.canRead (s.p + 1) 1 = false := by simpa using hc
          exact .inl ⟨by rw [h1]; simp [hr, hc'], .inr ⟨hc', hf⟩⟩
      · exact .inr (.inr (.inl ⟨by rw [h1]; simp [hr], hp, hf, .inl hb⟩))
  · exact .inl ⟨by simp [State.fetch, hp], .inl hp⟩

/-- The step of a running block, as R62 and R63 give it. -/
theorem step_running {s : State} (hs : s.status = .running) : step s = match s.fetch with
    | .halted c => .next (s.halt c)
    | .stopped f => .fault f
    | .head b0 b1 =>
      match Mode.ofCode s.mode with
      | none => .refused .illegalMode
      | some m => exec (decodeHead m b0 b1) s := by
  cases s; cases hs; rfl

/-- A fetched head is the head of `headInstr`'s instruction; a fetch halts with nothing changed; there is no other step. -/
theorem step_cases {s t : State} (h : step s = .next t) :
    s.status = .running ∧
      ((∃ c, s.fetch = .halted c ∧ t = s.halt c) ∨
        ∃ b0 b1 m, s.fetch = .head b0 b1 ∧ Mode.ofCode s.mode = some m ∧ exec (decodeHead m b0 b1) s = .next t) := by
  unfold step at h
  split at h
  · cases h
  · cases h
  · next hs =>
    refine ⟨hs, ?_⟩
    split at h
    · next c hf => exact .inl ⟨c, hf, by cases h; rfl⟩
    · cases h
    · next b0 b1 hf =>
      split at h
      · cases h
      · next m hm => exact .inr ⟨b0, b1, m, hf, hm, h⟩

/-- A passed write check on the touched bytes puts every pixel of the extent inside `D`. -/
theorem State.pixel_inside {s : State} {k : Nat} (h : s.canWrite s.d (touched s.d s.shift k) = true) {i : Nat}
    (hi : i < k) : (npos s.d s.shift + i) / 2 < s.outLen := by
  have hle := State.canWrite_le h
  have hc := touched_covers s.d s.shift k i hi
  omega

/-- An EOL retires or halts with `OOB_OUT` (R74, R85). -/
theorem State.endOfLine_cases (s : State) (sh : Shift) :
    (s.eolTarget ≤ s.outLen ∧ s.endOfLine sh =
      .next { s with p := s.p + 2, d := s.eolTarget, line := s.line + 1, shift := sh }) ∨
    (s.outLen < s.eolTarget ∧ s.endOfLine sh = .next (s.halt .oobOut)) := by
  unfold State.endOfLine
  by_cases h : s.eolTarget ≤ s.outLen
  · exact .inl ⟨h, by rw [if_pos (by simpa [State.canMove] using h)]; rfl⟩
  · exact .inr ⟨by omega, by rw [if_neg (by simpa [State.canMove] using h)]⟩

/-- A DELTA halts on either side, finds an operand unloaded, or retires (R76, R87). -/
theorem State.delta_cases (s : State) (m : Mode) (sh : Byte → Shift) :
    (s.canRead (s.p + 2) 2 = false ∧ s.delta m sh = .next (s.halt .oobIn)) ∨
    (s.canRead (s.p + 2) 2 = true ∧
      (((s.inByte (s.p + 2) = none ∨ s.inByte (s.p + 3) = none) ∧ s.delta m sh = .fault .inputUnloaded) ∨
      ∃ dx dy, s.inByte (s.p + 2) = some dx ∧ s.inByte (s.p + 3) = some dy ∧
        ((s.deltaTarget m dx dy ≤ s.outLen ∧ s.delta m sh =
            .next { s with p := s.p + 4, d := s.deltaTarget m dx dy, shift := sh dx }) ∨
          (s.outLen < s.deltaTarget m dx dy ∧ s.delta m sh = .next (s.halt .oobOut))))) := by
  cases hc : s.canRead (s.p + 2) 2 with
  | false => exact .inl ⟨rfl, by simp [State.delta, hc]⟩
  | true =>
    refine .inr ⟨rfl, ?_⟩
    have hle := State.canRead_le hc
    rcases State.readInput_cases (s := s) (a := s.p + 2) (by omega) with ⟨dx, hx, hrx⟩ | ⟨hx, hrx⟩
    · rcases State.readInput_cases (s := s) (a := s.p + 3) (by omega) with ⟨dy, hy, hry⟩ | ⟨hy, hry⟩
      · refine .inr ⟨dx, dy, hx, hy, ?_⟩
        by_cases h : s.deltaTarget m dx dy ≤ s.outLen
        · exact .inl ⟨h, by simp [State.delta, hc, State.deltaOperands, hrx, hry, State.canMove, h]; rfl⟩
        · exact .inr ⟨by omega, by simp [State.delta, hc, State.deltaOperands, hrx, hry, State.canMove, h]⟩
      · exact .inl ⟨.inr hy, by simp [State.delta, hc, State.deltaOperands, hrx, hry]⟩
    · exact .inl ⟨.inl hx, by simp [State.delta, hc, State.deltaOperands, hrx]⟩

/-- The end of an ABS retires over the padding or halts with `OOB_IN`, the copy kept (R77, R88). -/
theorem State.skipPadding_cases (s : State) (p pad : Nat) :
    (s.canRead p pad = true ∧ s.skipPadding p pad = .next { s with p := p + pad }) ∨
    (s.canRead p pad = false ∧ s.skipPadding p pad =
      .next { s with p := p, status := .done, cause := .oobIn }) := by
  have e : ({ s with p := p } : State).canRead p pad = s.canRead p pad := State.canRead_congr rfl rfl p pad
  unfold State.skipPadding
  cases h : s.canRead p pad with
  | true => exact .inl ⟨rfl, by simp only [e, h]; rfl⟩
  | false => exact .inr ⟨rfl, by simp only [e, h]; rfl⟩

end Sys2Proof.Machine
end

