-- ==== Sys2Proof/Tests/Slice0.lean ====
section
/-! SUPPORT. Tests and witnesses. Expected values come from the spec: the examples of the command rules (R73 to R88) and the
vectors of 95_test_vectors.md (E1, E2, V8-*, V4-*, P1). The witnesses `wit_<Name>` show states and operands that meet the
hypotheses of the statement `<Name>`, one for each clause. -/

namespace Sys2Proof.Tests

open Sys2Proof Sys2Proof.Machine

/-! ### Helpers -/

/-- The three behavioural parameters set away from their defaults, one by one. -/
def strict : Params := { Params.default with boundStrict := true }
def full : Params := { Params.default with haltOutFull := true }
def value : Params := { Params.default with abs4 := .value }
def aligned : Params := { Params.default with abs4 := .aligned }
def alignedStrict : Params := { Params.default with abs4 := .aligned, boundStrict := true }

/-- A block that the host loaded with `bytes` and a geometry, before START. -/
def loaded (c : Params) (m : Mode) (w h pitch : Nat) (bytes : List Byte) : State :=
  { State.resetOf c with
    mode := m.code, width := BitVec.ofNat 32 w, height := BitVec.ofNat 32 h, pitch := BitVec.ofNat 32 pitch
    inLen := BitVec.ofNat 32 bytes.length, S := Memory.load .input [] 0 bytes }

/-- The same block after START: every vector's initial state. -/
def started (c : Params) (m : Mode) (w h pitch : Nat) (bytes : List Byte) : State :=
  (loaded c m w h pitch bytes).started m

/-- The next state of an outcome. -/
def nextOf : Result → Option State
  | .next t => some t
  | .fault _ => none
  | .refused _ => none

/-- What a vector's row shows: `D`, the "End" column, and `CAUSE`. -/
structure Shown where
  out : List Byte
  p : Nat
  d : Nat
  line : Nat
  shift : Nat
  cause : Cause
deriving DecidableEq, Repr

def shown (r : Result) : Option Shown :=
  (nextOf r).map fun t => ⟨(List.range t.outLen).map t.outByte, t.p, t.d, t.line, t.shift.code, t.cause⟩

/-! ### WellFormed: each check refuses an ill-formed term -/

theorem test_wf_rle8_run_zero : (Instr.rle8Run 0 0x41).wf = false := by decide
theorem test_wf_rle4_run_zero : (Instr.rle4Run 0 0x21).wf = false := by decide
theorem test_wf_rle8_abs_two : (Instr.rle8Abs 2).wf = false := by decide
theorem test_wf_rle4_abs_two : (Instr.rle4Abs 2).wf = false := by decide
theorem test_wf_accepts :
    (Instr.rle8Run 1 0).wf = true ∧ (Instr.rle4Run 255 0).wf = true ∧ (Instr.rle8Abs 3).wf = true ∧
    (Instr.rle4Abs 255).wf = true := by decide
theorem test_command_wf_refuses :
    Command.wf .pointer .rle4 ⟨.rle8Eol, []⟩ = false ∧ Command.wf .pointer .rle8 ⟨.rle8Delta, [1]⟩ = false := by decide

/-! ### Decoding: words written out from 30_encoding.md and 95_test_vectors.md 2.4 -/

theorem test_decode_rle8_run : decode 1 [0x02, 0x41, 0x00, 0x01] = .ok (.rle8Run 2 0x41) := rfl
theorem test_decode_rle8_run_low : decode 1 [0x01, 0x00] = .ok (.rle8Run 1 0) := rfl
theorem test_decode_rle8_eol : decode 1 [0x00, 0x00] = .ok .rle8Eol := rfl
theorem test_decode_rle8_eob : decode 1 [0x00, 0x01] = .ok .rle8Eob := rfl
theorem test_decode_rle8_delta : decode 1 [0x00, 0x02, 0x01, 0x03] = .ok .rle8Delta := rfl
theorem test_decode_rle8_abs : decode 1 [0x00, 0x03, 0x0A, 0x0B, 0x0C, 0x00] = .ok (.rle8Abs 3) := rfl
theorem test_decode_rle4_run : decode 2 [0x04, 0x21] = .ok (.rle4Run 4 0x21) := rfl
theorem test_decode_rle4_eol : decode 2 [0x00, 0x00] = .ok .rle4Eol := rfl
theorem test_decode_rle4_eob : decode 2 [0x00, 0x01] = .ok .rle4Eob := rfl
theorem test_decode_rle4_delta : decode 2 [0x00, 0x02, 0x03, 0x01] = .ok .rle4Delta := rfl
theorem test_decode_rle4_abs : decode 2 [0x00, 0xFF] = .ok (.rle4Abs 255) := rfl
theorem test_decode_rejects_by_name :
    decode 1 [0x02] = .error .headCut ∧ decode 2 [] = .error .headCut ∧ decode 0 [0x00, 0x01] = .error .illegalMode ∧
    decode 3 [0x00, 0x01] = .error .illegalMode := ⟨rfl, rfl, rfl, rfl⟩
theorem test_decode_tail_cut : decodeCommand .pointer .rle8 [0x00, 0x02, 0x01] = .error .tailCut := rfl
theorem test_encode :
    encode (.rle8Run 0xFF 0xAA) = [0xFF, 0xAA] ∧ encode .rle4Delta = [0x00, 0x02] ∧ encode (.rle4Abs 7) = [0x00, 0x07] := by
  decide
/-- R47: the head as one number has its first byte in bits 15..8. -/
theorem test_table_word :
    decodeTableWord 16 0x0241 = some (.rle8Run 2 0x41) ∧ decodeTableWord 16 0x0001 = some .rle8Eob ∧
    decodeTableWord 32 0x0002 = some .rle8Delta ∧ decodeTableWordAs .rle4 16 0x0005 = some (.rle4Abs 5) :=
  ⟨rfl, rfl, rfl, rfl⟩
/-- 95_test_vectors.md 2.4, the rows 5 and 8 of the ABS length table. -/
theorem test_abs_lengths :
    commandLength .pointer (.rle8Abs 5) = 8 ∧ commandLength .pointer (.rle4Abs 5) = 5 ∧
    commandLength .value (.rle4Abs 5) = 3 ∧ commandLength .aligned (.rle4Abs 5) = 6 ∧
    commandLength .aligned (.rle4Abs 8) = 6 ∧ commandLength .value (.rle4Abs 8) = 2 := by decide

/-- The listing of program P1 (95_test_vectors.md, Part 3). -/
def p1 : Listing where
  mode := .rle8
  width := 4
  height := 3
  pitch := 0
  lines := [.run 3 0x11, .eol, .abs 3 [0x21, 0x22, 0x23], .pad, .run 1 0x24, .eol, .delta 2 0, .run 2 0x33, .eob]

theorem test_listing_bytes :
    p1.bytes = [0x03, 0x11, 0x00, 0x00, 0x00, 0x03, 0x21, 0x22, 0x23, 0x00, 0x01, 0x24, 0x00, 0x00, 0x00, 0x02, 0x02, 0x00,
      0x02, 0x33, 0x00, 0x01] := by decide

/-! ### RLE8, one step each -/

/-- R73's example, E1. -/
theorem test_rle8_run :
    shown (step (started .default .rle8 2 1 2 [0x02, 0x41, 0x00, 0x01])) =
      some ⟨[0x41, 0x41, 0x00, 0x00], 2, 2, 0, 4, .none⟩ := by decide
/-- V8-1s: an exact fit fails under `BOUND_STRICT`, and nothing is written. -/
theorem test_rle8_run_strict :
    shown (step (started strict .rle8 4 1 0 [0x04, 0x7F, 0x00, 0x01])) =
      some ⟨[0, 0, 0, 0], 0, 0, 0, 4, .oobOut⟩ := by decide
/-- R74's example. -/
theorem test_rle8_eol :
    shown (exec .rle8Eol { started .default .rle8 2 2 2 [0x00, 0x00] with d := 1 }) =
      some ⟨[0, 0, 0, 0, 0, 0, 0, 0], 2, 4, 1, 4, .none⟩ := by decide
/-- V8-6, second step: a row start beyond the end. -/
theorem test_rle8_eol_beyond :
    shown (step { started .default .rle8 2 1 2 [0, 0, 0, 0, 1, 0x22] with p := 2, d := 4, line := 1 }) =
      some ⟨[0, 0, 0, 0], 2, 4, 1, 4, .oobOut⟩ := by decide
/-- R75's example. -/
theorem test_rle8_eob :
    shown (step { started .default .rle8 2 1 2 [0x02, 0x41, 0x00, 0x01] with p := 2, d := 2 }) =
      some ⟨[0, 0, 0, 0], 4, 2, 0, 4, .eob⟩ := by decide
/-- R76's example. -/
theorem test_rle8_delta :
    (nextOf (step (started .default .rle8 4 3 0 [0x00, 0x02, 0x01, 0x01]))).map (fun t => (t.p, t.d, t.line)) =
      some (4, 5, 0) := by decide
/-- V8-8: 0 + 1 + 3 × 4 = 13 > 12. -/
theorem test_rle8_delta_beyond :
    (nextOf (step (started .default .rle8 4 3 0 [0x00, 0x02, 0x01, 0x03]))).map (fun t => (t.p, t.d, t.cause)) =
      some (0, 0, .oobOut) := by decide
/-- R77's example. -/
theorem test_rle8_abs :
    shown (step (started .default .rle8 4 1 0 [0x00, 0x03, 0x0A, 0x0B, 0x0C, 0x00])) =
      some ⟨[0x0A, 0x0B, 0x0C, 0x00], 6, 3, 0, 4, .none⟩ := by decide
/-- V8-14: the padding byte is missing; the copy is kept. -/
theorem test_rle8_abs_no_padding :
    shown (step (started .default .rle8 4 1 0 [0x00, 0x03, 0x0A, 0x0B, 0x0C])) =
      some ⟨[0x0A, 0x0B, 0x0C, 0x00], 5, 3, 0, 4, .oobIn⟩ := by decide

/-! ### RLE4, one step each -/

/-- R84's example, E2. -/
theorem test_rle4_run :
    shown (step (started .default .rle4 4 1 2 [0x04, 0x21, 0x00, 0x01])) =
      some ⟨[0x21, 0x21, 0x00, 0x00], 2, 2, 0, 4, .none⟩ := by decide
/-- V4-3, second step: from a low position the run starts with the low nibble. -/
theorem test_rle4_run_odd :
    shown (exec (.rle4Run 3 0x43)
      { started .default .rle4 4 1 0 [0x01, 0x21, 0x03, 0x43] with p := 2, shift := .low, D := [(0, 0x20)] }) =
      some ⟨[0x23, 0x43], 4, 2, 0, 4, .none⟩ := by decide
/-- R12: `{v ∥ old[3:0]}` and `{old[7:4] ∥ v}`. -/
theorem test_putnib :
    putnib 0xAB .high 0x5 = 0x5B ∧ putnib 0xAB .low 0x5 = 0xA5 ∧ nib 0xAB .high = 0xA ∧ nib 0xAB .low = 0xB := by decide
/-- R85's example. -/
theorem test_rle4_eol :
    shown (exec .rle4Eol { started .default .rle4 3 2 0 [0x00, 0x00] with shift := .low }) =
      some ⟨[0, 0, 0, 0], 2, 2, 1, 4, .none⟩ := by decide
/-- R86: a half-written byte and the shift stay. -/
theorem test_rle4_eob :
    shown (step { started .default .rle4 4 1 0 [0x00, 0x01] with shift := .low, D := [(0, 0x20)] }) =
      some ⟨[0x20, 0x00], 2, 0, 0, 0, .eob⟩ := by decide
/-- R87's example. -/
theorem test_rle4_delta :
    (nextOf (step (started .default .rle4 8 2 0 [0x00, 0x02, 0x03, 0x01]))).map (fun t => (t.p, t.d, t.shift)) =
      some (4, 5, .low) := by decide
/-- V4-12, second step: `DELTA 0, 0` from a low position steps back to the high nibble. -/
theorem test_rle4_delta_back :
    (nextOf (exec .rle4Delta { started .default .rle4 8 1 0 [0x00, 0x02, 0x00, 0x00] with shift := .low })).map
      (fun t => (t.p, t.d, t.shift)) = some (4, 0, .high) := by decide
/-- R88's example. -/
theorem test_rle4_abs :
    shown (step (started .default .rle4 8 1 0 [0x00, 0x03, 0x12, 0x34])) =
      some ⟨[0x12, 0x30, 0x00, 0x00], 4, 1, 0, 0, .none⟩ := by decide
/-- V4-28: under `value` the incremented byte wraps, and `S` holds it afterwards. -/
theorem test_rle4_abs_value :
    (nextOf (step (started value .rle4 8 1 0 [0x00, 0x04, 0xFF, 0x34, 0x00, 0x01]))).map
      (fun t => (t.p, t.d, t.outByte 0, t.outByte 1, t.inByte 2)) = some (2, 2, 0xFF, 0x00, some 0x01) := by decide

/-! ### Fetch, START, reset, the host -/

/-- E3: a lone first byte. -/
theorem test_fetch_lone_byte :
    shown (step (started .default .rle8 2 1 2 [0x02])) = some ⟨[0, 0, 0, 0], 0, 0, 0, 4, .oobIn⟩ := by decide
/-- V8-19f: the fetch after the DELTA finds the output full. -/
theorem test_fetch_out_full :
    shown (step { started full .rle8 2 2 0 [0, 2, 0, 2, 0, 0, 2, 0xEE, 0, 1] with p := 4, d := 4 }) =
      some ⟨[0, 0, 0, 0], 4, 4, 0, 4, .outFull⟩ := by decide
/-- R8, R61: START with an illegal mode is refused. -/
theorem test_start_refused :
    hostExec .start State.reset = .refused .startIllegal ∧
    hostExec .start (started .default .rle8 2 1 2 []) = .refused .startWhileRunning := ⟨rfl, rfl⟩
/-- R6, R61: what START latches for RLE4. -/
theorem test_start_latches :
    (nextOf (hostExec .start (loaded .default .rle4 5 2 1 [0x02, 0x12]))).map
      (fun t => (t.rowBytes, t.outLen, t.status, t.p)) = some (4, 8, .running, 0) := by decide
theorem test_step_after_reset : step State.reset = .refused .notRunning := rfl
/-- The very next step runs the placed instruction. -/
theorem test_with_fetch_word :
    (nextOf (step (State.reset.withFetchWord 16 0x0341))).map
      (fun t => (t.p, t.d, t.outByte 0, t.outByte 2, t.outByte 3, t.status)) =
      some (2, 3, 0x41, 0x41, 0x00, .running) := by
  set_option maxRecDepth 8000 in decide
/-- P1, from reset through the host's commands: the fetch finds the first command of the listing, and the geometry of
`.geom 4 3 0` is set (R57). -/
theorem test_launch :
    (nextOf (hostExecAll (launchCommands p1) State.reset)).map (fun t => (t.fetch, t.width, t.height, t.pitch, t.outLen)) =
      some (.head 0x03 0x11, 4, 3, 0, 12) := by decide

/-! ### Witnesses: encoding -/

theorem wit_EveryHeadIsOneCommand :
    (1 : Byte) ≠ 0 ∧ (255 : Byte) ≠ 0 ∧ 3 ≤ (3 : Byte).toNat ∧ 3 ≤ (255 : Byte).toNat ∧
    (Instr.wf (.rle4Abs 3) = true ∧ Instr.mode (.rle4Abs 3) = .rle4 ∧ encode (.rle4Abs 3) = [0, 3]) ∧
    Instr.rle8Run 255 0 = decodeHead .rle8 255 0 := by decide

/-- A stream of each kind of RLE4 command, under each `ABS4_ADVANCE`; an escape's bytes may stand inside a command. -/
theorem wit_StreamDecodesToItsCommands :
    (∀ c ∈ [Command.mk (.rle4Run 255 0x12) [], ⟨.rle4Eol, []⟩, ⟨.rle4Delta, [0, 1]⟩, ⟨.rle4Abs 5, [0, 1, 0x30]⟩,
        ⟨.rle4Eob, []⟩], c.wf .pointer .rle4 = true) ∧
    (∀ c ∈ [Command.mk (.rle4Abs 5) [0x10], ⟨.rle4Abs 4, []⟩], c.wf .value .rle4 = true) ∧
    (∀ c ∈ [Command.mk (.rle4Abs 5) [0, 1, 0x30, 0]], c.wf .aligned .rle4 = true) ∧
    (∀ c ∈ [Command.mk (.rle8Run 1 0) [], ⟨.rle8Eol, []⟩, ⟨.rle8Delta, [255, 0]⟩, ⟨.rle8Abs 3, [0, 1, 2, 9]⟩,
        ⟨.rle8Eob, []⟩], c.wf .pointer .rle8 = true) := by decide

theorem wit_DecodedStreamIsTheBytes :
    decodeStream .pointer .rle8 [0x02, 0x41, 0x00, 0x01] = .ok [⟨.rle8Run 2 0x41, []⟩, ⟨.rle8Eob, []⟩] ∧
    decodeStream .value .rle4 [0x00, 0x03, 0x12, 0x00, 0x02, 0x00, 0x01] =
      .ok [⟨.rle4Abs 3, [0x12]⟩, ⟨.rle4Delta, [0x00, 0x01]⟩] := ⟨rfl, rfl⟩

theorem wit_RetireAddsTheLength :
    (∃ t, step (started .default .rle8 4 1 0 [0x00, 0x03, 0x0A, 0x0B, 0x0C, 0x00]) = .next t ∧ t.status = .running) ∧
    (∃ t, step (started .default .rle8 4 1 0 [0x00, 0x01]) = .next t ∧ t.cause = .eob) :=
  ⟨⟨_, rfl, rfl⟩, ⟨_, rfl, rfl⟩⟩

/-! ### Witnesses: fetch and dispatch -/

/-- An extent that ends at the end of the buffer, under both settings. -/
theorem wit_BoundsPredicates :
    (started .default .rle8 4 1 0 [1, 2]).canRead 0 2 = true ∧ (started strict .rle8 4 1 0 [1, 2]).canRead 0 1 = true ∧
    (started strict .rle8 4 1 0 [1, 2]).canRead 0 2 = false ∧
    (started .default .rle8 4 1 0 [1, 2]).canWrite 1 3 = true ∧ (started strict .rle8 4 1 0 [1, 2]).canWrite 1 3 = false ∧
    (started strict .rle8 4 1 0 [1, 2]).canMove 4 = true ∧ (started .default .rle8 4 1 0 [1, 2]).canMove 5 = false := by
  decide

/-- One state for each clause: the stream used up, the output full, the head cut in two, and a whole head (the second byte
the last of the stream, with `d` at the end of `D`). -/
theorem wit_StepFetchesThenDispatches :
    (let s := { started .default .rle8 4 1 0 [1, 2] with p := 2 }
     s.status = .running ∧ ¬ s.p < s.inLen.toNat) ∧
    (let s := { started full .rle8 4 1 0 [1, 2] with d := 4 }
     s.status = .running ∧ s.p < s.inLen.toNat ∧ s.params.haltOutFull = true ∧ ¬ s.d < s.outLen) ∧
    (let s := started strict .rle8 4 1 0 [1, 2]
     s.status = .running ∧ s.p < s.inLen.toNat ∧ ¬ (s.params.haltOutFull = true ∧ ¬ s.d < s.outLen) ∧
       s.inByte s.p = some 1 ∧ s.canRead (s.p + 1) 1 = false) ∧
    (let s := { started .default .rle4 4 1 0 [0, 0, 1, 2] with p := 2, d := 2 }
     s.status = .running ∧ s.p < s.inLen.toNat ∧ ¬ (s.params.haltOutFull = true ∧ ¬ s.d < s.outLen) ∧
       s.inByte s.p = some 1 ∧ s.canRead (s.p + 1) 1 = true ∧ s.inByte (s.p + 1) = some 2) ∧
    decode (started .default .rle4 4 1 0 [0, 0, 1, 2]).mode [1, 2] = .ok (.rle4Run 1 2) :=
  ⟨by decide, by decide, by decide, by decide, rfl⟩

theorem wit_NoMoveUnlessRunning :
    State.reset.status ≠ .running ∧ (State.halt .eob (started .default .rle8 4 1 0 [])).status ≠ .running := by decide

theorem wit_EveryRunningStepSucceeds :
    let s := started .default .rle4 8 1 0 [0x00, 0x03, 0x12, 0x34]
    s.status = .running ∧ (Mode.ofCode s.mode).isSome = true ∧ s.Loaded := by
  unfold State.Loaded; decide

/-! ### Witnesses: RLE8 -/

/-- The exact fit of V8-1 and, under `BOUND_STRICT`, V8-1s. -/
theorem wit_Rle8RunResult :
    (started .default .rle8 4 1 0 [4, 0x7F]).canWrite 0 (4 : Byte).toNat = true ∧
    (started strict .rle8 4 1 0 [4, 0x7F]).canWrite 0 (4 : Byte).toNat = false := by decide

/-- `line + 1 = HEIGHT` passes, one line more does not; and the same for RLE4. -/
theorem wit_EolResult :
    (let s := started .default .rle8 2 1 2 [0, 0]; (s.line + 1) * s.rowBytes ≤ s.outLen) ∧
    (let s := { started .default .rle8 2 1 2 [0, 0] with line := 1 }; s.outLen < (s.line + 1) * s.rowBytes) ∧
    (let s := started .default .rle4 3 1 0 [0, 0]; (s.line + 1) * s.rowBytes ≤ s.outLen) ∧
    (let s := { started .default .rle4 3 1 0 [0, 0] with line := 1 }; s.outLen < (s.line + 1) * s.rowBytes) := by decide

/-- Operands cut off; a target of exactly `OUT_LEN`; a target one beyond (V8-16, V8-9, V8-8). -/
theorem wit_Rle8DeltaResult :
    (let s := started .default .rle8 4 3 0 [0, 2, 1]; s.canRead (s.p + 2) 2 = false) ∧
    (let s := started .default .rle8 4 3 0 [0, 2, 0, 3]
     s.canRead (s.p + 2) 2 = true ∧ s.inByte (s.p + 2) = some 0 ∧ s.inByte (s.p + 3) = some 3 ∧
       s.d + (0 : Byte).toNat + (3 : Byte).toNat * s.rowBytes ≤ s.outLen) ∧
    (let s := started .default .rle8 4 3 0 [0, 2, 1, 3]
     s.canRead (s.p + 2) 2 = true ∧ s.inByte (s.p + 2) = some 1 ∧ s.inByte (s.p + 3) = some 3 ∧
       s.outLen < s.d + (1 : Byte).toNat + (3 : Byte).toNat * s.rowBytes) := by decide

/-- V8-13 (data cut off), V8-15 (output too small), V8-11 (padding there), V8-14 (padding missing), and V8-s5 (missing under
`BOUND_STRICT` only). -/
theorem wit_Rle8AbsResult :
    (let s := started .default .rle8 4 1 0 [0, 4, 1, 2, 3]; s.canRead (s.p + 2) (4 : Byte).toNat = false) ∧
    (let s := { started .default .rle8 4 1 0 [0, 4, 1, 2, 3, 4] with d := 1 }
     s.canRead (s.p + 2) (4 : Byte).toNat = true ∧ s.canWrite s.d (4 : Byte).toNat = false) ∧
    (let s := started .default .rle8 4 1 0 [0, 3, 1, 2, 3, 0]
     s.canRead (s.p + 2) (3 : Byte).toNat = true ∧ s.canWrite s.d (3 : Byte).toNat = true ∧
       (∀ i, i < (3 : Byte).toNat → (s.inByte (s.p + 2 + i)).isSome = true) ∧
       s.canRead (s.p + 2 + (3 : Byte).toNat) ((3 : Byte).toNat % 2) = true) ∧
    (let s := started .default .rle8 4 1 0 [0, 3, 1, 2, 3]
     s.canRead (s.p + 2) (3 : Byte).toNat = true ∧ s.canWrite s.d (3 : Byte).toNat = true ∧
       (∀ i, i < (3 : Byte).toNat → (s.inByte (s.p + 2 + i)).isSome = true) ∧
       s.canRead (s.p + 2 + (3 : Byte).toNat) ((3 : Byte).toNat % 2) = false) ∧
    (let s := started strict .rle8 8 1 0 [0, 3, 1, 2, 3, 0]
     s.canRead (s.p + 2) (3 : Byte).toNat = true ∧
       s.canRead (s.p + 2 + (3 : Byte).toNat) ((3 : Byte).toNat % 2) = false) := by decide

theorem wit_EvenRle8AbsNeverLacksPadding :
    let s := started .default .rle8 4 1 0 [0, 4, 1, 2, 3, 4]
    s.status = .running ∧ (4 : Byte).toNat % 2 = 0 ∧ s.canRead (s.p + 2) (4 : Byte).toNat = true ∧
      s.canWrite s.d (4 : Byte).toNat = true ∧ (nextOf (exec (.rle8Abs 4) s)).isSome = true := by decide

theorem wit_PaddingByteIsNotRead :
    ∃ t, exec (.rle8Abs 3) (started .default .rle8 4 1 0 [0, 3, 1, 2, 3, 7]) = .next t := ⟨_, rfl⟩

/-! ### Witnesses: RLE4 -/

theorem wit_TouchedIsTheExtent :
    1 ≤ 1 ∧ 0 < 1 ∧ touched 0 .high 1 = 1 ∧ touched 0 .low 255 = 128 ∧ touched 5 .low 4 = 3 := by decide

theorem wit_EmitWritesOneNibble :
    (let s := started .default .rle4 4 1 0 []; s.d < s.outLen ∧ s.shift = .high) ∧
    (let s := { started .default .rle4 4 1 0 [] with d := 1, shift := .low }; s.d < s.outLen ∧ s.shift = .low) := by decide

/-- V4-6 (a run from a low position that just fits) and V4-7 (one nibble too many); the byte 1 is covered completely. -/
theorem wit_Rle4RunResult :
    (let s := { started .default .rle4 4 1 0 [3, 0xAB] with shift := .low }
     s.canWrite s.d (touched s.d s.shift (3 : Byte).toNat) = true ∧ npos s.d s.shift ≤ 2 * 1 ∧
       2 * 1 + 2 ≤ npos s.d s.shift + (3 : Byte).toNat) ∧
    (let s := { started .default .rle4 4 1 0 [4, 0xAB] with shift := .low }
     s.canWrite s.d (touched s.d s.shift (4 : Byte).toNat) = false) := by decide

/-- Operands cut off; `dx` odd with the target at `OUT_LEN` (V4-15); a target beyond (V4-13). -/
theorem wit_Rle4DeltaResult :
    (let s := started .default .rle4 8 1 0 [0, 2, 1]; s.canRead (s.p + 2) 2 = false) ∧
    (let s := started .default .rle4 8 1 0 [0, 2, 9, 0]
     s.canRead (s.p + 2) 2 = true ∧ s.inByte (s.p + 2) = some 9 ∧ s.inByte (s.p + 3) = some 0 ∧
       s.d + (9 : Byte).toNat / 2 + (0 : Byte).toNat * s.rowBytes ≤ s.outLen) ∧
    (let s := started .default .rle4 4 2 0 [0, 2, 0, 3]
     s.canRead (s.p + 2) 2 = true ∧ s.inByte (s.p + 2) = some 0 ∧ s.inByte (s.p + 3) = some 3 ∧
       s.outLen < s.d + (0 : Byte).toNat / 2 + (3 : Byte).toNat * s.rowBytes) := by decide

/-- R87's corner cases: from a high and from a low position. -/
theorem wit_Rle4DeltaNibbleAddress :
    (let s := started .default .rle4 8 2 0 [0, 2, 3, 1]
     s.status = .running ∧ s.shift = .high ∧ s.inByte (s.p + 2) = some 3 ∧ s.inByte (s.p + 3) = some 1 ∧
       (nextOf (exec .rle4Delta s)).map State.status = some .running) ∧
    (let s := { started .default .rle4 8 1 0 [0, 2, 0, 0] with shift := .low }
     s.status = .running ∧ s.shift = .low ∧ s.inByte (s.p + 2) = some 0 ∧ s.inByte (s.p + 3) = some 0 ∧
       (nextOf (exec .rle4Delta s)).map State.status = some .running) := by decide

/-- Data cut off; output too small; V4-22's ABS 5 under each `ABS4_ADVANCE`, with its padding; and, under `aligned`, the padding
missing. -/
theorem wit_Rle4AbsResult :
    (let s := started .default .rle4 8 1 0 [0, 5, 0x12, 0x34]; s.canRead (s.p + 2) (ceil2 (5 : Byte).toNat) = false) ∧
    (let s := { started .default .rle4 8 1 0 [0, 5, 0x12, 0x34, 0x56] with d := 2 }
     s.canRead (s.p + 2) (ceil2 (5 : Byte).toNat) = true ∧
       s.canWrite s.d (touched s.d s.shift (5 : Byte).toNat) = false) ∧
    (∀ c ∈ [Params.default, value, aligned],
      let s := started c .rle4 8 1 0 [0, 5, 0x12, 0x34, 0x56, 0, 0, 1]
      s.canRead (s.p + 2) (ceil2 (5 : Byte).toNat) = true ∧ s.canWrite s.d (touched s.d s.shift (5 : Byte).toNat) = true ∧
        (∀ i, i < ceil2 (5 : Byte).toNat → (s.inByte (s.p + 2 + i)).isSome = true) ∧
        (nextOf (exec (.rle4Abs 5) s)).map State.status = some .running) ∧
    (let s := started aligned .rle4 8 1 0 [0, 5, 0x12, 0x34, 0x56]
     s.canRead (s.p + 2) (ceil2 (5 : Byte).toNat) = true ∧ s.canWrite s.d (touched s.d s.shift (5 : Byte).toNat) = true ∧
       (∀ i, i < ceil2 (5 : Byte).toNat → (s.inByte (s.p + 2 + i)).isSome = true) ∧
       s.canRead (s.p + 2 + ceil2 (5 : Byte).toNat) (ceil2 (5 : Byte).toNat % 2) = false) := by decide

theorem wit_Rle4PaddingNeverMissing :
    ∀ c ∈ [Params.default, value],
      let s := started c .rle4 8 1 0 [0, 3, 0x12, 0x34]
      s.params.abs4 ≠ .aligned ∧ s.status = .running ∧ s.canRead (s.p + 2) (ceil2 (3 : Byte).toNat) = true ∧
        s.canWrite s.d (touched s.d s.shift (3 : Byte).toNat) = true ∧
        (nextOf (exec (.rle4Abs 3) s)).isSome = true := by decide

/-! ### Witnesses: frames -/

theorem wit_Rle8StoreFrame :
    (∃ t, exec (.rle8Run 2 0x41) (started .default .rle8 2 1 2 [2, 0x41]) = .next t ∧ t.status = .running) ∧
    (∃ t, exec (.rle8Abs 3) (started .default .rle8 4 1 0 [0, 3, 1, 2, 3]) = .next t ∧ t.status = .done) :=
  ⟨⟨_, rfl, rfl⟩, ⟨_, rfl, rfl⟩⟩

theorem wit_Rle4StoreFrame :
    (∃ t, exec (.rle4Run 3 0x21) (started .default .rle4 4 1 0 [3, 0x21]) = .next t ∧ t.status = .running) ∧
    (∃ t, exec (.rle4Abs 4) (started value .rle4 8 1 0 [0, 4, 0xFF, 0x34]) = .next t ∧ t.status = .running) ∧
    value.abs4 = .value ∧ Params.default.abs4 ≠ .value :=
  ⟨⟨_, rfl, rfl⟩, ⟨_, rfl, rfl⟩, rfl, by decide⟩

theorem wit_NoStoreFrame :
    ∀ i ∈ [Instr.rle8Eol, .rle8Eob, .rle8Delta, .rle4Eol, .rle4Eob, .rle4Delta],
      (nextOf (exec i (started .default .rle8 4 3 0 [0, 2, 1, 1]))).isSome = true := by decide

/-! ### Witnesses: the whole machine -/

/-- A running block that meets the invariant, in the middle of a picture. -/
def mid : State := { started .default .rle4 8 2 0 [0x01, 0xF0, 0x00, 0x00, 0x00, 0x03, 0x12, 0x34] with
  p := 4, d := 4, line := 1, D := [(0, 0xF0)] }

theorem mid_inv : mid.Inv where
  input_wf := by decide
  output_wf := by decide
  output_inside := by unfold State.OutputInside; decide
  cause_none := by decide
  latched := fun _ => ⟨.rle4, by decide⟩
  p_le := by decide
  d_le := by decide
  line_le := by decide
  line_bytes := by decide
  rle8_shift := by decide

/-- A step that halts, from a state that meets the invariant: the last byte of the stream is a lone first byte. -/
def midHalt : State := { mid with p := 7 }

theorem midHalt_inv : midHalt.Inv where
  input_wf := by decide
  output_wf := by decide
  output_inside := by unfold State.OutputInside; decide
  cause_none := by decide
  latched := fun _ => ⟨.rle4, by decide⟩
  p_le := by decide
  d_le := by decide
  line_le := by decide
  line_bytes := by decide
  rle8_shift := by decide

/-- For `StepKeepsInvariant` and `CursorsStayInBounds`: a step that retires and one that halts. -/
theorem wit_StepKeepsInvariant :
    (mid.Inv ∧ ∃ t, step mid = .next t ∧ t.status = .running) ∧
    (midHalt.Inv ∧ ∃ t, step midHalt = .next t ∧ t.status = .done) :=
  ⟨⟨mid_inv, _, rfl, rfl⟩, ⟨midHalt_inv, _, rfl, rfl⟩⟩

theorem wit_RegistersFitTheirWidths :
    mid.Inv ∧ mid.status = .running ∧ mid.params.maxIn < 2 ^ 31 ∧ mid.params.maxOut < 2 ^ 31 :=
  ⟨mid_inv, by decide, by decide, by decide⟩

/-- A loaded block that meets the invariant, on which the host's writes and START have their effect. -/
theorem wit_HostKeepsInvariant :
    (loaded .default .rle8 2 1 2 [2, 0x41, 0, 1]).Inv ∧
    (∃ t, hostExec .start (loaded .default .rle8 2 1 2 [2, 0x41, 0, 1]) = .next t ∧ t.status = .running) ∧
    (∃ t, hostExec (.writeInput 4 0) (loaded .default .rle8 2 1 2 [2, 0x41, 0, 1]) = .next t) ∧
    (∃ t, hostExec .reset mid = .next t) :=
  ⟨{ input_wf := by decide, output_wf := by decide, output_inside := by unfold State.OutputInside; decide,
     cause_none := by decide, latched := fun h => absurd h (by decide), p_le := by decide, d_le := by decide, line_le := by decide,
     line_bytes := by decide, rle8_shift := by decide }, ⟨_, rfl, rfl⟩, ⟨_, rfl⟩, ⟨_, rfl⟩⟩

/-- For `NoAccessOutsideTheBuffers`: a loaded block. -/
theorem wit_NoAccessOutsideTheBuffers : mid.Loaded := by unfold State.Loaded; decide

/-- For `StepConsumesTwoBytes`, `SetupConstantWhileRunning`, `StreamIsImmutable` and `LineCountsEols`: a step that retires, of
an EOL and of another command. -/
theorem wit_StepConsumesTwoBytes :
    (∃ t, step mid = .next t ∧ t.status ≠ .done ∧ t.status = .running) ∧
    (∃ t, step { mid with p := 2, line := 0 } = .next t ∧ t.status = .running) ∧
    State.headInstr { mid with p := 2, line := 0 } = some .rle4Eol ∧ mid.headInstr = some (.rle4Abs 3) ∧
    mid.params.abs4 ≠ .value := by
  refine ⟨⟨_, rfl, ?_, ?_⟩, ⟨_, rfl, ?_⟩, ?_, ?_, ?_⟩ <;> decide

/-- For `HaltsArePrecise` and `HaltCauses`: a halt of each kind (EOB, a failed check, both halts after a copy, a full
output). -/
theorem wit_HaltsArePrecise :
    (∃ t, step (started .default .rle8 4 1 0 [0, 1]) = .next t ∧ t.status = .done ∧ t.cause = .eob) ∧
    (∃ t, step (started .default .rle8 4 1 0 [5, 1]) = .next t ∧ t.status = .done ∧ t.cause = .oobOut) ∧
    (∃ t, step (started .default .rle8 4 1 0 [0, 3, 1, 2, 3]) = .next t ∧ t.status = .done ∧ t.p = 5) ∧
    (∃ t, step (started aligned .rle4 8 1 0 [0, 5, 1, 2, 3]) = .next t ∧ t.status = .done ∧ t.p = 5) ∧
    (∃ t, step { started full .rle8 4 1 0 [0, 1] with d := 4 } = .next t ∧ t.status = .done ∧ t.cause = .outFull) :=
  ⟨⟨_, rfl, rfl, rfl⟩, ⟨_, rfl, rfl, rfl⟩, ⟨_, rfl, rfl, rfl⟩, ⟨_, rfl, rfl, rfl⟩, ⟨_, rfl, rfl, rfl⟩⟩

/-- For `StreamIsImmutable`: under `value` the byte `S[p+2]` does change. -/
theorem wit_StreamIsImmutable :
    (nextOf (step (started value .rle4 8 1 0 [0, 4, 0xFF, 0x34]))).map (fun t => t.inByte 2) = some (some 0x01) := by decide

theorem wit_OnlyRunAndAbsWriteOutput :
    ∃ t, step (started .default .rle8 2 1 2 [2, 0x41]) = .next t ∧
      t.outByte 1 ≠ (started .default .rle8 2 1 2 [2, 0x41]).outByte 1 := ⟨_, rfl, by decide⟩

theorem wit_Rle8ShiftStays :
    (started .default .rle8 2 1 2 [2, 0x41]).mode = Mode.rle8.code ∧
    ∃ t, step (started .default .rle8 2 1 2 [2, 0x41]) = .next t := ⟨by decide, _, rfl⟩

theorem wit_EveryRunTerminates :
    let s := started .default .rle8 2 1 2 [0x02, 0x41, 0x00, 0x01]
    s.status = .running ∧ (Mode.ofCode s.mode).isSome = true ∧ s.Loaded := by
  unfold State.Loaded; decide

/-- The stream is two bytes long; the byte beyond it differs, and both blocks step. -/
theorem wit_BytesBeyondTheStreamDoNotMatter :
    let s := started .default .rle8 4 1 0 [2, 0x41]
    let s' := { s with S := Memory.write .input s.S 2 9 }
    SameStream s s' ∧ s'.S ≠ s.S ∧ ∃ t, step s = .next t := by
  refine ⟨⟨rfl, ?_⟩, by decide, _, rfl⟩
  decide

/-- A block after reset and one that has just halted with another picture, with equal inputs. -/
theorem wit_RunDependsOnlyOnItsInputs :
    let s1 := loaded .default .rle8 2 1 2 [2, 0x41, 0, 1]
    let s2 := { s1 with p := 3, d := 2, line := 1, shift := .low, outLen := 9, status := .done, cause := .oobOut, D := [(0, 7)] }
    SameInputs s1 s2 ∧ (∃ t, hostExec .start s1 = .next t ∧ ∃ u, core.run 1 t = .next u) ∧
      ∃ t, hostExec .start s2 = .next t := by
  refine ⟨⟨rfl, rfl, rfl, rfl, rfl, rfl, fun _ _ => rfl⟩, ⟨_, rfl, _, rfl⟩, _, rfl⟩

/-! ### Witnesses: the host -/

/-- While running; an illegal mode; a legal geometry at the cap of `MAX_OUT`, and one beyond it. -/
theorem wit_StartEffect :
    (started .default .rle8 2 1 2 []).status = .running ∧
    (State.reset.status ≠ .running ∧ Mode.ofCode State.reset.mode = none) ∧
    (let s := loaded { Params.default with maxOut := 8 } .rle4 5 2 1 [2, 0x12]
     s.status ≠ .running ∧ Mode.ofCode s.mode = some .rle4 ∧
       ((s.width.toNat + 1) / 2 + s.pitch.toNat) * s.height.toNat ≤ s.params.maxOut ∧ s.inLen.toNat ≤ s.params.maxIn) ∧
    (let s := loaded { Params.default with maxOut := 7 } .rle8 3 2 1 [2, 0x12]
     s.status ≠ .running ∧ Mode.ofCode s.mode = some .rle8 ∧
       ¬ ((s.width.toNat + s.pitch.toNat) * s.height.toNat ≤ s.params.maxOut ∧ s.inLen.toNat ≤ s.params.maxIn)) := by
  decide

theorem wit_HaltIsSticky :
    let s := State.halt .oobOut (started .default .rle8 2 1 2 [5, 0x41])
    s.status = .done ∧ HostCmd.writeWidth 3 ≠ .start ∧ HostCmd.writeWidth 3 ≠ .reset ∧
      (nextOf (hostExec (.writeWidth 3) s)).isSome = true := by decide

theorem wit_HostLockedOutWhileRunning :
    (started .default .rle8 2 1 2 [5, 0x41]).status = .running ∧ HostCmd.start ≠ .reset ∧ HostQuery.cause ≠ .status := by
  decide

theorem wit_HostReadsTheResult :
    let s := State.halt .eob { started .default .rle8 2 1 2 [2, 0x41, 0, 1] with D := [(0, 0x41), (1, 0x41)] }
    s.status = .done ∧ 1 < s.outLen ∧ s.outByte 1 = 0x41 := by decide

/-- Program P1 in an instance whose caps it meets exactly. -/
theorem wit_LaunchLoadsAndStarts :
    let c := { Params.default with maxIn := 22, maxOut := 12 }
    p1.bytes.length < 2 ^ 32 ∧ p1.bytes.length ≤ c.maxIn ∧
      rowBytesOf p1.mode p1.width.toNat p1.pitch.toNat * p1.height.toNat ≤ c.maxOut ∧ 21 < p1.bytes.length := by decide

end Sys2Proof.Tests
end

/-! The statements of 00_scope.md: the bounds predicates (R11), the nibble primitives (R12), and the registers that no
step writes (R5, R7, R13). -/

namespace Sys2Proof.Machine

/-! ### Bounds (R11) -/

/-- Settles O6: each predicate by its law, and an extent that passes ends inside the buffer under either setting. -/
theorem boundsPredicates : Obligations.BoundsPredicates := by
  intro s a n
  refine ⟨fun hb => ?_, fun hb => ?_, s.canMove_iff a, fun k hk h => ?_, fun k hk h => ?_⟩
  · simp [State.canRead_iff, State.canWrite_iff, hb]
  · simp [State.canRead_iff, State.canWrite_iff, hb]
  · have := State.canRead_le h
    omega
  · have := State.canWrite_le h
    omega

/-! ### Nibbles (R12) -/

/-- The nibble that a shift selects is the four bits of the byte from the shift's code on. -/
theorem nib_eq_extractLsb' (b : Byte) (s : Shift) : nib b s = b.extractLsb' s.code 4 := by
  ext i hi
  simp [nib]

/-- Settles O17: the halves of a byte are its two nibbles, and a nibble write sets one of them and keeps the other. -/
theorem nibblePrimitives : Obligations.NibblePrimitives := by
  have high (b : Byte) : nib b .high = b.extractLsb' 4 4 := nib_eq_extractLsb' b .high
  have low (b : Byte) : nib b .low = b.extractLsb' 0 4 := nib_eq_extractLsb' b .low
  refine ⟨fun b => ⟨high b, low b⟩, fun old v => ?_, fun d => ⟨rfl, rfl⟩⟩
  simp only [← high, ← low]
  exact ⟨nib_putnib_same old .high v, nib_putnib_other old v (by decide),
    nib_putnib_other old v (by decide), nib_putnib_same old .low v⟩

/-! ### What the accesses and the pixel loops leave unchanged

These hold of every access and loop that ends without a fault, whatever bounds were checked before it. -/

/-- `t` is `s` but for the write position and the two memories: all that the pixels of a command can change. -/
def PixelFrame (s t : State) : Prop := t = { s with d := t.d, shift := t.shift, S := t.S, D := t.D }

theorem PixelFrame.refl (s : State) : PixelFrame s s := rfl

theorem PixelFrame.trans {s t u : State} (h : PixelFrame s t) (g : PixelFrame t u) : PixelFrame s u := by
  unfold PixelFrame at h g ⊢
  rw [g, h]

theorem State.writeInput_frame {s t : State} {a : Nat} {b : Byte} (h : s.writeInput a b = .ok t) : PixelFrame s t := by
  unfold State.writeInput at h
  split at h <;> cases h
  rfl

theorem State.writeOutput_frame {s t : State} {a : Nat} {b : Byte} (h : s.writeOutput a b = .ok t) : PixelFrame s t := by
  unfold State.writeOutput at h
  split at h <;> cases h
  rfl

theorem State.fillBytes_frame {s t : State} {a : Nat} {v : Byte} {k : Nat} (h : s.fillBytes a v k = .ok t) :
    PixelFrame s t := by
  induction k generalizing t with
  | zero => cases h; exact .refl s
  | succ k ih =>
    rw [State.fillBytes] at h
    split at h
    · cases h
    · next u hu => exact (ih hu).trans (State.writeOutput_frame h)

theorem State.copyBytes_frame {s t : State} {q a k : Nat} (h : s.copyBytes q a k = .ok t) : PixelFrame s t := by
  induction k generalizing t with
  | zero => cases h; exact .refl s
  | succ k ih =>
    rw [State.copyBytes] at h
    split at h
    · cases h
    · next u hu =>
      split at h
      · cases h
      · exact (ih hu).trans (State.writeOutput_frame h)

theorem State.emit_frame {s t : State} {c : Nibble} (h : s.emit c = .ok t) : PixelFrame s t := by
  unfold State.emit at h
  split at h
  · cases h
  · split at h
    · cases h
    · next u hu =>
      refine (State.writeOutput_frame hu).trans ?_
      split at h <;> cases h <;> rfl

theorem State.emitRun_frame {s t : State} {v : Byte} {k : Nat} (h : s.emitRun v k = .ok t) : PixelFrame s t := by
  induction k generalizing t with
  | zero => cases h; exact .refl s
  | succ k ih =>
    rw [State.emitRun] at h
    split at h
    · cases h
    · next u hu => exact (ih hu).trans (State.emit_frame h)

theorem AbsRead.advance_frame {r r' : AbsRead} {b : Byte} (h : r.advance b = .ok r') : PixelFrame r.state r'.state := by
  unfold AbsRead.advance at h
  split at h
  · cases h; exact .refl _
  · split at h
    · split at h
      · cases h
      · next u hu => cases h; exact State.writeInput_frame hu
    · cases h; exact .refl _
    · cases h; exact .refl _

theorem AbsRead.pixel_frame {r r' : AbsRead} (h : r.pixel = .ok r') : PixelFrame r.state r'.state := by
  unfold AbsRead.pixel at h
  split at h
  · cases h
  · split at h
    · cases h
    · next u hu =>
      split at h
      · cases h
      · next t ht => cases h; exact (AbsRead.advance_frame hu).trans (State.emit_frame ht)

theorem AbsRead.pixels_frame {r r' : AbsRead} {k : Nat} (h : r.pixels k = .ok r') : PixelFrame r.state r'.state := by
  induction k generalizing r' with
  | zero => cases h; exact .refl _
  | succ k ih =>
    rw [AbsRead.pixels] at h
    split at h
    · cases h
    · next u hu => exact (ih hu).trans (AbsRead.pixel_frame h)

/-! ### The setup registers (R5, R7, R13) -/

theorem SameSetup.refl (s : State) : SameSetup s s := ⟨rfl, rfl, rfl, rfl, rfl, rfl, rfl, rfl⟩

theorem SameSetup.trans {s t u : State} (h : SameSetup s t) (g : SameSetup t u) : SameSetup s u := by
  unfold SameSetup at *
  simp only [g, h, and_self]

theorem PixelFrame.sameSetup {s t : State} (h : PixelFrame s t) : SameSetup s t := by
  rw [show t = _ from h]
  exact .refl s

theorem State.sameSetup_of_halt {s t : State} {c : Cause} (h : (.next (s.halt c) : Result) = .next t) :
    SameSetup s t := by
  cases h
  exact .refl s

/-- A step that did not stop in `finish` had no failing access. -/
theorem finish_next {r : Except Fault State} {k : State → Result} {t : State} (h : finish r k = .next t) :
    ∃ u, r = .ok u ∧ k u = .next t := by
  cases r with
  | ok u => exact ⟨u, rfl, h⟩
  | error f => cases h

theorem State.skipPadding_sameSetup {s t : State} {p pad : Nat} (h : s.skipPadding p pad = .next t) : SameSetup s t := by
  rcases s.skipPadding_cases p pad with ⟨-, e⟩ | ⟨-, e⟩ <;> cases e.symm.trans h <;> exact .refl s

theorem State.endOfLine_sameSetup {s t : State} {sh : Shift} (h : s.endOfLine sh = .next t) : SameSetup s t := by
  rcases s.endOfLine_cases sh with ⟨-, e⟩ | ⟨-, e⟩ <;> cases e.symm.trans h <;> exact .refl s

theorem State.endOfBitmap_sameSetup {s t : State} (h : s.endOfBitmap = .next t) : SameSetup s t := by
  cases h
  exact .refl s

theorem State.delta_sameSetup {s t : State} {m : Mode} {sh : Byte → Shift} (h : s.delta m sh = .next t) :
    SameSetup s t := by
  rcases s.delta_cases m sh with ⟨-, e⟩ | ⟨-, ⟨-, e⟩ | ⟨_, _, -, -, ⟨-, e⟩ | ⟨-, e⟩⟩⟩ <;> cases e.symm.trans h <;>
    exact .refl s

theorem execRle8Run_sameSetup {count v : Byte} {s t : State} (h : execRle8Run count v s = .next t) : SameSetup s t := by
  unfold execRle8Run at h
  split at h
  · obtain ⟨u, hu, hk⟩ := finish_next h
    cases hk
    exact (State.fillBytes_frame hu).sameSetup
  · exact State.sameSetup_of_halt h

theorem execRle8Abs_sameSetup {n : Byte} {s t : State} (h : execRle8Abs n s = .next t) : SameSetup s t := by
  unfold execRle8Abs at h
  split at h
  · split at h
    · obtain ⟨u, hu, hk⟩ := finish_next h
      have hp := State.skipPadding_sameSetup hk
      exact (State.copyBytes_frame hu).sameSetup.trans hp
    · exact State.sameSetup_of_halt h
  · exact State.sameSetup_of_halt h

theorem execRle4Run_sameSetup {count v : Byte} {s t : State} (h : execRle4Run count v s = .next t) : SameSetup s t := by
  unfold execRle4Run at h
  split at h
  · obtain ⟨u, hu, hk⟩ := finish_next h
    cases hk
    exact (State.emitRun_frame hu).sameSetup
  · exact State.sameSetup_of_halt h

theorem execRle4Abs_sameSetup {n : Byte} {s t : State} (h : execRle4Abs n s = .next t) : SameSetup s t := by
  unfold execRle4Abs at h
  split at h
  · split at h
    · split at h
      · cases h
      · next r hr => exact (AbsRead.pixels_frame hr).sameSetup.trans (State.skipPadding_sameSetup h)
    · exact State.sameSetup_of_halt h
  · exact State.sameSetup_of_halt h

/-- No command writes a setup register. -/
theorem exec_sameSetup {i : Instr} {s t : State} (h : exec i s = .next t) : SameSetup s t := by
  cases i with
  | rle8Run count v => exact execRle8Run_sameSetup h
  | rle8Eol => exact State.endOfLine_sameSetup h
  | rle8Eob => exact State.endOfBitmap_sameSetup h
  | rle8Delta => exact State.delta_sameSetup h
  | rle8Abs n => exact execRle8Abs_sameSetup h
  | rle4Run count v => exact execRle4Run_sameSetup h
  | rle4Eol => exact State.endOfLine_sameSetup h
  | rle4Eob => exact State.endOfBitmap_sameSetup h
  | rle4Delta => exact State.delta_sameSetup h
  | rle4Abs n => exact execRle4Abs_sameSetup h

/-- Settles O38: a step is a halt of the fetch or one command, and neither writes a setup register. -/
theorem setupConstantWhileRunning : Obligations.SetupConstantWhileRunning := by
  intro s t h
  obtain ⟨-, ⟨c, -, rfl⟩ | ⟨b0, b1, m, -, -, he⟩⟩ := step_cases h
  · exact .refl s
  · exact exec_sameSetup he

end Sys2Proof.Machine

/-! The statements of 10_state.md: the invariant of the block (R14 to R23, R26), the widths of its registers (R27), the line
counter (R16), the nibble shift (R17), the cells of `S` that do not exist (R22), and what the host reads (R30). -/

namespace Sys2Proof.Machine

/-! ### Heads and fetch -/

theorem decodeHead_mode (m : Mode) (b0 b1 : Byte) : (decodeHead m b0 b1).mode = m := by
  cases m <;> (unfold decodeHead; split_ifs <;> rfl)

/-- A fetched head is the head of `headInstr`'s instruction, and its two bytes are inside the stream (R52, R62). -/
theorem State.headInstr_of_fetch {s : State} {b0 b1 : Byte} {m : Mode} (hf : s.fetch = .head b0 b1)
    (hm : Mode.ofCode s.mode = some m) :
    s.headInstr = some (decodeHead m b0 b1) ∧ s.p + 2 ≤ s.inLen.toNat := by
  rcases s.fetch_cases with ⟨e, -⟩ | ⟨e, -⟩ | ⟨e, -⟩ | ⟨c0, c1, e, -, -, hc, h0, h1⟩ <;> cases e.symm.trans hf
  exact ⟨by simp only [State.headInstr, hm, h0, h1], State.canRead_le hc⟩

/-- A halt of the fetch names a cause (R62). -/
theorem State.cause_of_fetch_halted {s : State} {c : Cause} (hf : s.fetch = .halted c) : c ≠ .none := by
  rcases s.fetch_cases with ⟨e, -⟩ | ⟨e, -⟩ | ⟨e, -⟩ | ⟨_, _, e, -⟩ <;> cases e.symm.trans hf <;> decide

/-! ### What a command can do

`State.Effect s i t` holds of every next state `t` that the command `i` answers in `s` (`exec_effect`): the statements about
the registers and the invariant are read off it. -/

/-- `u` is `s` after the command `i` has moved the cursors and written its pixels: `p` forward inside the stream, `d` inside
`D`, both memories in the form they had, and `shift` only in RLE4 (R14, R15, R17, R22, R23). -/
structure State.Advance (s : State) (i : Instr) (u : State) : Prop where
  frame : u = { s with p := u.p, d := u.d, shift := u.shift, S := u.S, D := u.D }
  p_ge : s.p ≤ u.p
  p_le : u.p ≤ s.inLen.toNat
  d_le : s.d ≤ s.outLen → u.d ≤ s.outLen
  shift_rle8 : i.mode = .rle8 → u.shift = s.shift
  input_wf : Memory.wf .input s.S → Memory.wf .input u.S
  output_form : KeepsForm s.outLen s.D u.D

/-- What a command whose head lies inside the stream can answer: an EOL retires and counts a line; any other command
advances the cursors; and any command may halt, in the state where it began or after such an advance. -/
inductive State.Effect (s : State) (i : Instr) : State → Prop where
  | eol {sh : Shift} (hi : i = .rle8Eol ∨ i = .rle4Eol) (hsh : i.mode = .rle8 → sh = s.shift)
      (hp : s.p + 2 ≤ s.inLen.toNat) (ht : s.eolTarget ≤ s.outLen) :
      s.Effect i { s with p := s.p + 2, d := s.eolTarget, line := s.line + 1, shift := sh }
  | advance {u : State} (hi : ¬ (i = .rle8Eol ∨ i = .rle4Eol)) (hu : s.Advance i u) : s.Effect i u
  | halt {u : State} {c : Cause} (hc : c ≠ .none) (hu : s.Advance i u) : s.Effect i (u.halt c)

theorem State.Advance.refl {s : State} {i : Instr} (hp : s.p ≤ s.inLen.toNat) : s.Advance i s where
  frame := rfl
  p_ge := le_rfl
  p_le := hp
  d_le := id
  shift_rle8 := fun _ => rfl
  input_wf := id
  output_form := .refl _ _

theorem State.Advance.retire {s u : State} {i : Instr} {n : Nat} (hu : s.Advance i u)
    (hn : u.p + n ≤ s.inLen.toNat) : s.Advance i (u.retire n) where
  frame := congrArg (State.retire n) hu.frame
  p_ge := hu.p_ge.trans (Nat.le_add_right _ _)
  p_le := hn
  d_le := hu.d_le
  shift_rle8 := hu.shift_rle8
  input_wf := hu.input_wf
  output_form := hu.output_form

/-- After `k` pixels the output cursor stands at the end of their extent at most (R79). -/
theorem npos_add_div_two_le (d : Nat) (sh : Shift) (k : Nat) : (npos d sh + k) / 2 ≤ d + touched d sh k := by
  unfold touched ceil2
  omega

/-- `k` RLE4 pixels that the write check admits, and a read cursor inside the stream, are an advance (R84, R88). -/
theorem State.Advance.atNibble {s : State} {i : Instr} {S' D' : Memory} {k q : Nat}
    (hw : s.canWrite s.d (touched s.d s.shift k) = true) (hi : i.mode = .rle4)
    (hq : s.p ≤ q) (hq' : q ≤ s.inLen.toNat)
    (hS : Memory.wf .input s.S → Memory.wf .input S') (hD : KeepsForm s.outLen s.D D') :
    s.Advance i { ({ s with S := S', D := D' } : State).atNibble (npos s.d s.shift + k) with p := q } where
  frame := rfl
  p_ge := hq
  p_le := hq'
  d_le := fun _ => (npos_add_div_two_le _ _ _).trans (State.canWrite_le hw)
  shift_rle8 := fun h => nomatch hi.symm.trans h
  input_wf := hS
  output_form := hD

/-- A halt that leaves everything but `STATUS` and `CAUSE` (R95). -/
theorem State.Effect.halt_of_next {s t : State} {i : Instr} {c : Cause} (hp : s.p + 2 ≤ s.inLen.toNat)
    (hc : c ≠ .none) (h : (.next (s.halt c) : Result) = .next t) : s.Effect i t := by
  cases h
  exact .halt hc (.refl (by omega))

/-- The end of an ABS: the copy is an advance, and the padding is one more, or its lack halts the block (R77, R88). -/
theorem State.skipPadding_effect {s u t : State} {i : Instr} {q pad : Nat} (hi : ¬ (i = .rle8Eol ∨ i = .rle4Eol))
    (h : u.skipPadding q pad = .next t) (hl : u.inLen = s.inLen) (hu : s.Advance i { u with p := q }) :
    s.Effect i t := by
  rcases u.skipPadding_cases q pad with ⟨hc, e⟩ | ⟨-, e⟩ <;> cases e.symm.trans h
  · have hle : q + pad ≤ s.inLen.toNat := hl ▸ State.canRead_le hc
    exact .advance hi (hu.retire hle)
  · exact .halt (u := { u with p := q }) (c := .oobIn) (by decide) hu

/-! ### The ten commands -/

section

variable {s t : State} (hp : s.p + 2 ≤ s.inLen.toNat)
include hp

theorem State.endOfLine_effect {i : Instr} {sh : Shift} (hi : i = .rle8Eol ∨ i = .rle4Eol)
    (hsh : i.mode = .rle8 → sh = s.shift) (h : s.endOfLine sh = .next t) : s.Effect i t := by
  rcases s.endOfLine_cases sh with ⟨ht, e⟩ | ⟨-, e⟩
  · cases e.symm.trans h
    exact .eol hi hsh hp ht
  · exact .halt_of_next hp (by decide) (e.symm.trans h)

theorem State.endOfBitmap_effect {i : Instr} (h : s.endOfBitmap = .next t) : s.Effect i t := by
  cases h
  exact .halt (by decide) ((State.Advance.refl (by omega)).retire hp)

theorem State.delta_effect {i : Instr} {m : Mode} {sh : Byte → Shift} (hi : ¬ (i = .rle8Eol ∨ i = .rle4Eol))
    (hsh : ∀ dx, i.mode = .rle8 → sh dx = s.shift) (h : s.delta m sh = .next t) : s.Effect i t := by
  rcases s.delta_cases m sh with ⟨-, e⟩ | ⟨hc, ⟨-, e⟩ | ⟨dx, dy, -, -, ⟨ht, e⟩ | ⟨-, e⟩⟩⟩
  · exact .halt_of_next hp (by decide) (e.symm.trans h)
  · cases e.symm.trans h
  · cases e.symm.trans h
    have hle := State.canRead_le hc
    exact .advance hi {
      frame := rfl
      p_ge := Nat.le_add_right _ _
      p_le := hle
      d_le := fun _ => ht
      shift_rle8 := hsh dx
      input_wf := id
      output_form := .refl _ _ }
  · exact .halt_of_next hp (by decide) (e.symm.trans h)

theorem execRle8Run_effect {count v : Byte} (h : execRle8Run count v s = .next t) :
    s.Effect (.rle8Run count v) t := by
  unfold execRle8Run at h
  split at h
  · next hw =>
    have hle := State.canWrite_le hw
    obtain ⟨D', hf, hD, -⟩ := fillBytes_spec s s.d v _ hle
    obtain ⟨u, hu, hk⟩ := finish_next h
    cases hf.symm.trans hu
    cases hk
    exact .advance (by simp) {
      frame := rfl
      p_ge := Nat.le_add_right _ _
      p_le := hp
      d_le := fun _ => hle
      shift_rle8 := fun _ => rfl
      input_wf := id
      output_form := hD }
  · exact .halt_of_next hp (by decide) h

theorem execRle8Abs_effect {n : Byte} (h : execRle8Abs n s = .next t) : s.Effect (.rle8Abs n) t := by
  unfold execRle8Abs at h
  split at h
  · next hr =>
    split at h
    · next hw =>
      have hrle := State.canRead_le hr
      have hwle := State.canWrite_le hw
      obtain ⟨u, hu, hk⟩ := finish_next h
      rcases copyBytes_spec s (s.p + 2) s.d n.toNat hrle hwle with ⟨D', hf, hD, -⟩ | ⟨hf, -⟩ <;>
        cases hf.symm.trans hu
      exact State.skipPadding_effect (by simp) hk rfl {
        frame := rfl
        p_ge := (Nat.le_add_right _ _).trans (Nat.le_add_right _ _)
        p_le := hrle
        d_le := fun _ => hwle
        shift_rle8 := fun _ => rfl
        input_wf := id
        output_form := hD }
    · exact .halt_of_next hp (by decide) h
  · exact .halt_of_next hp (by decide) h

theorem execRle4Run_effect {count v : Byte} (h : execRle4Run count v s = .next t) :
    s.Effect (.rle4Run count v) t := by
  unfold execRle4Run at h
  split at h
  · next hw =>
    obtain ⟨D', hf, hD, -⟩ := emitRun_spec s v count.toNat fun _ => State.pixel_inside hw
    obtain ⟨u, hu, hk⟩ := finish_next h
    cases hf.symm.trans hu
    cases hk
    exact .advance (by simp) (.atNibble hw rfl (Nat.le_add_right _ _) hp id hD)
  · exact .halt_of_next hp (by decide) h

end

theorem State.inByte_of_readInput {s : State} {a : Nat} {b : Byte} (h : s.readInput a = .ok b) :
    s.inByte a = some b := by
  unfold State.readInput at h
  split at h
  · split at h <;> cases h
    assumption
  · cases h

/-- A pixel loop that ends well has read its first byte. -/
theorem AbsRead.pixels_loaded {r r' : AbsRead} {k : Nat} (h : r.pixels (k + 1) = .ok r') :
    ∃ b, r.state.inByte r.q = some b := by
  induction k generalizing r' with
  | zero =>
    simp only [AbsRead.pixels, AbsRead.pixel] at h
    split at h
    · cases h
    · next b hb => exact ⟨b, State.inByte_of_readInput hb⟩
  | succ k ih =>
    rw [AbsRead.pixels] at h
    split at h
    · cases h
    · next u hu => exact ih hu

/-- Where the pixel loop of an RLE4 ABS ends, under any `ABS4_ADVANCE`: `k` nibbles on in `D`, and with its read offset
inside the data (R83, R88). -/
theorem AbsRead.pixels_ok {s : State} {q k : Nat} {r : AbsRead} (hq : q + ceil2 k ≤ s.inLen.toNat)
    (hd : ∀ i, i < k → (npos s.d s.shift + i) / 2 < s.outLen) (h : AbsRead.pixels ⟨s, q, .high⟩ k = .ok r) :
    ∃ S' D', r.state = ({ s with S := S', D := D' } : State).atNibble (npos s.d s.shift + k) ∧
      q ≤ r.q ∧ r.q ≤ q + ceil2 k ∧ (Memory.wf .input s.S → Memory.wf .input S') ∧ KeepsForm s.outLen s.D D' := by
  unfold ceil2 at hq ⊢
  by_cases hv : s.params.abs4 = .value
  · cases k with
    | zero =>
      cases h
      exact ⟨s.S, s.D, (State.atNibble_self s).symm, le_rfl, Nat.le_add_right _ _, id, .refl _ _⟩
    | succ k =>
      obtain ⟨b, hb⟩ := AbsRead.pixels_loaded h
      obtain ⟨S', D', hf, hS, -, hD, -⟩ := pixels_value s q (k + 1) b hv (by omega) hb hd
      cases hf.symm.trans h
      exact ⟨S', D', rfl, le_rfl, Nat.le_add_right _ _, hS, hD⟩
  · rcases pixels_moving s q k hv (fun i hi => by omega) hd with ⟨D', hf, -, hD, -⟩ | ⟨hf, -⟩ <;>
      cases hf.symm.trans h
    exact ⟨s.S, D', rfl, Nat.le_add_right _ _, by simp only; omega, id, hD⟩

/-- The data of an RLE4 ABS end inside the extent that its check admits (R88). -/
theorem abs4End_bounds (adv : Abs4Advance) {p0 q n : Nat} (hq : p0 + 2 ≤ q) (hq' : q ≤ p0 + 2 + ceil2 n) :
    p0 + 2 ≤ abs4End adv p0 q n ∧ abs4End adv p0 q n ≤ p0 + 2 + ceil2 n := by
  cases adv with
  | pointer => exact ⟨hq, hq'⟩
  | value => exact ⟨hq, hq'⟩
  | aligned => exact ⟨Nat.le_add_right _ _, le_rfl⟩

theorem execRle4Abs_effect {s t : State} (hp : s.p + 2 ≤ s.inLen.toNat) {n : Byte}
    (h : execRle4Abs n s = .next t) : s.Effect (.rle4Abs n) t := by
  unfold execRle4Abs at h
  split at h
  · next hr =>
    split at h
    · next hw =>
      have hle := State.canRead_le hr
      split at h
      · cases h
      · next r hok =>
        obtain ⟨S', D', e, hq, hq', hS, hD⟩ := AbsRead.pixels_ok hle (fun _ => State.pixel_inside hw) hok
        obtain ⟨hge, hend⟩ := abs4End_bounds s.params.abs4 hq hq'
        rw [e] at h
        exact State.skipPadding_effect (by simp) h rfl
          (.atNibble hw rfl (by omega) (hend.trans hle) hS hD)
    · exact .halt_of_next hp (by decide) h
  · exact .halt_of_next hp (by decide) h

/-- Everything a command can answer when its head lies inside the stream. -/
theorem exec_effect {i : Instr} {s t : State} (hp : s.p + 2 ≤ s.inLen.toNat) (h : exec i s = .next t) :
    s.Effect i t := by
  cases i with
  | rle8Run count v => exact execRle8Run_effect hp h
  | rle8Eol => exact State.endOfLine_effect hp (.inl rfl) (fun _ => rfl) h
  | rle8Eob => exact State.endOfBitmap_effect hp h
  | rle8Delta => exact State.delta_effect hp (by simp) (fun _ _ => rfl) h
  | rle8Abs n => exact execRle8Abs_effect hp h
  | rle4Run count v => exact execRle4Run_effect hp h
  | rle4Eol => exact State.endOfLine_effect hp (.inr rfl) (fun hm => by cases hm) h
  | rle4Eob => exact State.endOfBitmap_effect hp h
  | rle4Delta => exact State.delta_effect hp (by simp) (fun _ hm => by cases hm) h
  | rle4Abs n => exact execRle4Abs_effect hp h

/-- Everything a step can do: the fetch halts, or the command at `p` has its effect. -/
theorem step_effect {s t : State} (h : step s = .next t) :
    s.status = .running ∧
      ((∃ c, c ≠ .none ∧ t = s.halt c) ∨
        ∃ i, s.headInstr = some i ∧ Mode.ofCode s.mode = some i.mode ∧ s.Effect i t) := by
  obtain ⟨hs, ⟨c, hf, rfl⟩ | ⟨b0, b1, m, hf, hm, he⟩⟩ := step_cases h
  · exact ⟨hs, .inl ⟨c, State.cause_of_fetch_halted hf, rfl⟩⟩
  · obtain ⟨hi, hp⟩ := State.headInstr_of_fetch hf hm
    exact ⟨hs, .inr ⟨_, hi, by rw [decodeHead_mode, hm], exec_effect hp he⟩⟩

/-! ### The invariant (R14 to R17, R21 to R23, R26) -/

/-- What the invariant says of a running block: it is neither idle nor done, so every clause applies. -/
theorem State.Inv.running {s : State} (hI : s.Inv) (hs : s.status = .running) :
    s.cause = .none ∧ s.Latched ∧ s.p ≤ s.inLen.toNat ∧ s.d ≤ s.outLen ∧ s.line * s.rowBytes ≤ s.outLen ∧
      2 * s.line ≤ s.p := by
  have hidle : s.status ≠ .idle := by simp [hs]
  exact ⟨hI.cause_none.2 (by simp [hs]), hI.latched hs, hI.p_le hs, hI.d_le hidle, hI.line_le hidle,
    hI.line_bytes hidle⟩

/-- A halt of a running block keeps the invariant (R95). -/
theorem State.Inv.halt {s : State} {c : Cause} (hI : s.Inv) (hs : s.status = .running) (hc : c ≠ .none) :
    (s.halt c).Inv := by
  obtain ⟨-, -, -, hd, hline, hbytes⟩ := hI.running hs
  exact {
    input_wf := hI.input_wf
    output_wf := hI.output_wf
    output_inside := hI.output_inside
    cause_none := by simp [hc]
    latched := nofun
    p_le := nofun
    d_le := fun _ => hd
    line_le := fun _ => hline
    line_bytes := fun _ => hbytes
    rle8_shift := nofun }

/-- Under the RLE8 personality the command is an RLE8 one (R46). -/
theorem State.mode_rle8_of_code {s : State} {i : Instr} (hm : Mode.ofCode s.mode = some i.mode)
    (h8 : s.mode = Mode.rle8.code) : i.mode = .rle8 := by
  rw [h8, Mode.ofCode_code] at hm
  exact (Option.some.inj hm).symm

section

variable {s : State} {i : Instr} (hI : s.Inv) (hs : s.status = .running) (hm : Mode.ofCode s.mode = some i.mode)
include hI hs hm

/-- An advance of a running block keeps the invariant. -/
theorem State.Advance.inv {u : State} (hu : s.Advance i u) : u.Inv := by
  obtain ⟨hcause, hlat, -, hd, hline, hbytes⟩ := hI.running hs
  obtain ⟨hframe, hge, hle, hdle, hshift, hS, hwf, hin⟩ := hu
  rw [hframe]
  exact {
    input_wf := hS hI.input_wf
    output_wf := hwf hI.output_wf
    output_inside := hin hI.output_inside
    cause_none := hI.cause_none
    latched := fun _ => hlat
    p_le := fun _ => hle
    d_le := fun _ => hdle hd
    line_le := fun _ => hline
    line_bytes := fun _ => hbytes.trans hge
    rle8_shift := fun _ h8 => (hshift (State.mode_rle8_of_code hm h8)).trans (hI.rle8_shift hs h8) }

/-- What a command of a running block answers keeps the invariant. -/
theorem State.Effect.inv {t : State} (he : s.Effect i t) : t.Inv := by
  cases he with
  | eol hi hsh hp ht =>
    obtain ⟨-, hlat, -, -, -, hbytes⟩ := hI.running hs
    exact {
      input_wf := hI.input_wf
      output_wf := hI.output_wf
      output_inside := hI.output_inside
      cause_none := hI.cause_none
      latched := fun _ => hlat
      p_le := fun _ => hp
      d_le := fun _ => ht
      line_le := fun _ => ht
      line_bytes := fun _ => by simp only; omega
      rle8_shift := fun _ h8 => (hsh (State.mode_rle8_of_code hm h8)).trans (hI.rle8_shift hs h8) }
  | advance hi hu => exact hu.inv hI hs hm
  | halt hc hu => exact (hu.inv hI hs hm).halt (by rw [hu.frame, hs]) hc

end

/-- Settles O30: a halt of the fetch keeps the invariant, and so does every command. -/
theorem stepKeepsInvariant : Obligations.StepKeepsInvariant := by
  intro s t hI h
  obtain ⟨hs, ⟨c, hc, rfl⟩ | ⟨i, -, hm, he⟩⟩ := step_effect h
  · exact hI.halt hs hc
  · exact he.inv hI hs hm

/-- The state after reset is idle and lists nothing: no other clause of the invariant speaks of it (R26). -/
theorem State.resetOf_inv (c : Params) : (State.resetOf c).Inv where
  input_wf := (State.resetOf_wf c).1
  output_wf := (State.resetOf_wf c).2
  output_inside := by simp [State.OutputInside, State.resetOf]
  cause_none := by simp [State.resetOf]
  latched := nofun
  p_le := nofun
  d_le := fun h => absurd rfl h
  line_le := fun h => absurd rfl h
  line_bytes := fun h => absurd rfl h
  rle8_shift := nofun

/-- Settles O29. -/
theorem resetMeetsInvariant : Obligations.ResetMeetsInvariant := State.resetOf_inv

/-- START establishes the running part of the invariant (R61). -/
theorem State.Inv.started {s : State} {m : Mode} (hI : s.Inv) (hm : s.legalMode = some m) : (s.started m).Inv := by
  obtain ⟨hcode, hout, hin⟩ := State.legalMode_spec hm
  exact {
    input_wf := hI.input_wf
    output_wf := Memory.wf_nil _
    output_inside := by simp [State.OutputInside, State.started]
    cause_none := by simp [State.started]
    latched := fun _ => ⟨m, hcode, rfl, rfl, hout, hin⟩
    p_le := fun _ => Nat.zero_le _
    d_le := fun _ => Nat.zero_le _
    line_le := fun _ => by simp [State.started]
    line_bytes := fun _ => le_rfl
    rle8_shift := fun _ _ => rfl }

/-- A host write of the configuration registers or of `S` that is not refused keeps the invariant when `S` stays in
canonical form: the block does not run, and the clauses for a started block speak of other registers (R43). -/
theorem State.Inv.hostWrite {s t : State} (hI : s.Inv) {mode : BitVec 2} {width height pitch inLen : Word} {S : Memory}
    (hS : Memory.wf .input S)
    (h : s.hostWrite { s with
      mode := mode, width := width, height := height, pitch := pitch, inLen := inLen, S := S } = .next t) :
    t.Inv := by
  obtain ⟨hs, rfl⟩ := State.hostWrite_cases h
  exact {
    input_wf := hS
    output_wf := hI.output_wf
    output_inside := hI.output_inside
    cause_none := hI.cause_none
    latched := fun hr => absurd hr hs
    p_le := fun hr => absurd hr hs
    d_le := hI.d_le
    line_le := hI.line_le
    line_bytes := hI.line_bytes
    rle8_shift := fun hr => absurd hr hs }

/-- Settles O31: reset gives the state after reset, START the running part, and a write is made by a block that does not
run. -/
theorem hostKeepsInvariant : Obligations.HostKeepsInvariant := by
  intro c s t hI h
  cases c with
  | reset => cases h; exact State.resetOf_inv _
  | writeMode v => exact hI.hostWrite hI.input_wf h
  | writeWidth v => exact hI.hostWrite hI.input_wf h
  | writeHeight v => exact hI.hostWrite hI.input_wf h
  | writePitch v => exact hI.hostWrite hI.input_wf h
  | writeInLen v => exact hI.hostWrite hI.input_wf h
  | writeInput a b =>
    simp only [hostExec] at h
    split at h
    · exact hI.hostWrite (Memory.wf_write a b hI.input_wf) h
    · cases h
  | start =>
    obtain ⟨-, m, hm, rfl⟩ := State.start_cases h
    exact hI.started hm

/-! ### Cursors and widths (R14, R15, R27) -/

/-- The input cursor after a command, a halting one too (R14). -/
theorem State.Effect.p_bounds {s t : State} {i : Instr} (he : s.Effect i t) : s.p ≤ t.p ∧ t.p ≤ s.inLen.toNat := by
  cases he with
  | eol _ _ hp _ => exact ⟨Nat.le_add_right _ _, hp⟩
  | advance _ hu => exact ⟨hu.p_ge, hu.p_le⟩
  | halt _ hu => exact ⟨hu.p_ge, hu.p_le⟩

theorem State.Effect.status_ne_idle {s t : State} {i : Instr} (he : s.Effect i t) (hs : s.status = .running) :
    t.status ≠ .idle := by
  cases he with
  | eol => simp [hs]
  | advance _ hu => rw [hu.frame]; simp [hs]
  | halt => simp

/-- Settles O32: `d` is bounded by the invariant after the step, `p` by what the step can do. -/
theorem cursorsStayInBounds : Obligations.CursorsStayInBounds := by
  intro s t hI h
  have hd := (stepKeepsInvariant s t hI h).d_le
  obtain ⟨-, -, -, -, -, hlen, -⟩ := setupConstantWhileRunning s t h
  obtain ⟨hs, ⟨c, -, rfl⟩ | ⟨i, -, -, he⟩⟩ := step_effect h
  · exact ⟨hI.p_le hs, hd (by simp), le_rfl⟩
  · obtain ⟨hge, hle⟩ := he.p_bounds
    exact ⟨hlen ▸ hle, hd (he.status_ne_idle hs), hge⟩

/-- `ROWBYTES` is at most the sum of two 32-bit registers (R6). -/
theorem State.newRowBytes_le (s : State) (m : Mode) : s.newRowBytes m ≤ 2 ^ 33 := by
  have hw := s.width.isLt
  have hp := s.pitch.isLt
  cases m <;> simp only [State.newRowBytes, rowBytesOf] <;> omega

/-- Settles O33: the caps bound `IN_LEN` and `OUT_LEN`, and with them the cursors and `line`; `ROWBYTES` is bounded by its
registers. -/
theorem registersFitTheirWidths : Obligations.RegistersFitTheirWidths := by
  intro s hI hs hin hout
  obtain ⟨-, ⟨m, -, hrb, -, hmaxOut, hmaxIn⟩, hp, hd, hline, hbytes⟩ := hI.running hs
  have hrow : s.rowBytes ≤ 2 ^ 33 := hrb ▸ s.newRowBytes_le m
  have htarget : (s.line + 1) * s.rowBytes = s.line * s.rowBytes + s.rowBytes := Nat.succ_mul _ _
  refine ⟨?_, ?_, ?_, ?_, ?_⟩ <;> omega

/-! ### The line counter (R16) and the nibble shift (R17) -/

/-- Settles O39: only an EOL that retires writes `line`, and it adds one. -/
theorem lineCountsEols : Obligations.LineCountsEols := by
  intro s t h
  obtain ⟨hs, ⟨c, -, rfl⟩ | ⟨i, hi, -, he⟩⟩ := step_effect h
  · exact ⟨nofun, fun _ => rfl⟩
  · simp only [hi, Option.some.injEq]
    cases he with
    | eol heol => exact ⟨fun _ _ => rfl, fun hn => absurd ⟨heol, hs⟩ hn⟩
    | advance hne hu => exact ⟨fun heol => absurd heol hne, fun _ => by rw [hu.frame]⟩
    | halt _ hu => exact ⟨nofun, fun _ => by rw [State.halt_line, hu.frame]⟩

theorem State.Effect.shift_of_rle8 {s t : State} {i : Instr} (he : s.Effect i t) (hi : i.mode = .rle8) :
    t.shift = s.shift := by
  cases he with
  | eol _ hsh _ _ => exact hsh hi
  | advance _ hu => exact hu.shift_rle8 hi
  | halt _ hu => exact hu.shift_rle8 hi

/-- Settles O42: a halt of the fetch leaves `shift`, and so does every command of the RLE8 personality. -/
theorem rle8ShiftStays : Obligations.Rle8ShiftStays := by
  intro s t h8 h
  obtain ⟨-, ⟨c, -, rfl⟩ | ⟨i, -, hm, he⟩⟩ := step_effect h
  · rfl
  · exact he.shift_of_rle8 (State.mode_rle8_of_code hm h8)

/-! ### The cells of `S` that do not exist (R22)

Two blocks that differ in such cells only go through every operation with the same faults, refusals and checks, and end in
two blocks that differ in such cells only. -/

/-- The two accesses or loops fail alike, or both end well in values that `R` relates. -/
def Agree {α : Type} (R : α → α → Prop) (x y : Except Fault α) : Prop :=
  (∃ a b, x = .ok a ∧ y = .ok b ∧ R a b) ∨ ∃ f, x = .error f ∧ y = .error f

theorem Agree.ok {α : Type} {R : α → α → Prop} {a b : α} (h : R a b) : Agree R (.ok a) (.ok b) :=
  .inl ⟨a, b, rfl, rfl, h⟩

theorem Agree.error {α : Type} {R : α → α → Prop} (f : Fault) : Agree R (.error f) (.error f) := .inr ⟨f, rfl, rfl⟩

theorem Agree.ite {α : Type} {R : α → α → Prop} {c : Prop} [Decidable c] {x x' y y' : Except Fault α}
    (h : Agree R x x') (g : Agree R y y') : Agree R (if c then x else y) (if c then x' else y') := by
  split
  · exact h
  · exact g

/-- The two outcomes are next states with the same stream, or the same fault or refusal. -/
inductive SameOutcome : Result → Result → Prop where
  | next {t u : State} (h : SameStream t u) : SameOutcome (.next t) (.next u)
  | fault (f : Fault) : SameOutcome (.fault f) (.fault f)
  | refused (r : Refusal) : SameOutcome (.refused r) (.refused r)

theorem SameOutcome.ite {c : Prop} [Decidable c] {x x' y y' : Result} (h : SameOutcome x x') (g : SameOutcome y y') :
    SameOutcome (if c then x else y) (if c then x' else y') := by
  split
  · exact h
  · exact g

theorem Agree.finish {x y : Except Fault State} {k k' : State → Result} (h : Agree SameStream x y)
    (hk : ∀ t u, SameStream t u → SameOutcome (k t) (k' u)) : SameOutcome (finish x k) (finish y k') := by
  rcases h with ⟨t, u, rfl, rfl, htu⟩ | ⟨f, rfl, rfl⟩
  · exact hk t u htu
  · exact .fault f

theorem sameStream_iff {s t : State} :
    SameStream s t ↔ ∃ X, t = { s with S := X } ∧
      ∀ a, a < s.inLen.toNat → Memory.read .input X a = Memory.read .input s.S a :=
  ⟨fun ⟨e, hX⟩ => ⟨t.S, e, hX⟩, by rintro ⟨X, rfl, hX⟩; exact ⟨rfl, hX⟩⟩

section

variable {s t : State} (h : SameStream s t)
include h

theorem SameStream.readInput (a : Nat) : t.readInput a = s.readInput a := by
  obtain ⟨X, rfl, hX⟩ := sameStream_iff.1 h
  by_cases ha : a < s.inLen.toNat
  · simp only [State.readInput, State.inByte, hX a ha]
  · simp only [State.readInput, ha, if_false]

theorem SameStream.writeOutput (a : Nat) (b : Byte) : Agree SameStream (s.writeOutput a b) (t.writeOutput a b) := by
  obtain ⟨X, rfl, hX⟩ := sameStream_iff.1 h
  exact .ite (.ok ⟨rfl, hX⟩) (.error _)

theorem SameStream.writeInput (a : Nat) (b : Byte) : Agree SameStream (s.writeInput a b) (t.writeInput a b) := by
  obtain ⟨X, rfl, hX⟩ := sameStream_iff.1 h
  refine .ite (.ok ⟨rfl, fun x hx => ?_⟩) (.error _)
  by_cases hxa : x = a
  · subst hxa
    exact (Memory.read_write_same ..).trans (Memory.read_write_same ..).symm
  · exact (Memory.read_write_other _ _ _ hxa).trans ((hX x hx).trans (Memory.read_write_other _ _ _ hxa).symm)

theorem SameStream.fillBytes (a : Nat) (v : Byte) (k : Nat) :
    Agree SameStream (s.fillBytes a v k) (t.fillBytes a v k) := by
  induction k with
  | zero => exact .ok h
  | succ k ih =>
    rw [State.fillBytes, State.fillBytes]
    rcases ih with ⟨s', t', e, e', h'⟩ | ⟨f, e, e'⟩ <;> rw [e, e']
    · exact h'.writeOutput _ _
    · exact .error f

theorem SameStream.copyBytes (q a k : Nat) : Agree SameStream (s.copyBytes q a k) (t.copyBytes q a k) := by
  induction k with
  | zero => exact .ok h
  | succ k ih =>
    rw [State.copyBytes, State.copyBytes]
    rcases ih with ⟨s', t', e, e', h'⟩ | ⟨f, e, e'⟩ <;> rw [e, e']
    · simp only [h'.readInput]
      split
      · exact .error _
      · exact h'.writeOutput _ _
    · exact .error f

theorem SameStream.emit (c : Nibble) : Agree SameStream (s.emit c) (t.emit c) := by
  obtain ⟨X, rfl, hX⟩ := sameStream_iff.1 h
  by_cases hd : s.d < s.outLen
  · simp only [State.emit, State.readOutput, State.writeOutput, hd, if_true]
    split <;> exact .ok ⟨rfl, hX⟩
  · simp only [State.emit, State.readOutput, hd, if_false]
    exact .error _

theorem SameStream.emitRun (v : Byte) (k : Nat) : Agree SameStream (s.emitRun v k) (t.emitRun v k) := by
  induction k with
  | zero => exact .ok h
  | succ k ih =>
    rw [State.emitRun, State.emitRun]
    rcases ih with ⟨s', t', e, e', h'⟩ | ⟨f, e, e'⟩ <;> rw [e, e']
    · have hsh : t'.shift = s'.shift := by rw [h'.1]
      simp only [hsh]
      exact h'.emit _
    · exact .error f

end

/-- The two read sides of an RLE4 ABS stand at the same nibble of the same stream. -/
def SameRead (r r' : AbsRead) : Prop := SameStream r.state r'.state ∧ r'.q = r.q ∧ r'.rs = r.rs

section

variable {r r' : AbsRead} (h : SameRead r r')
include h

theorem SameRead.advance (b : Byte) : Agree SameRead (r.advance b) (r'.advance b) := by
  obtain ⟨hst, hq, hrs⟩ := h
  have hpar : r'.state.params = r.state.params := by rw [hst.1]
  simp only [AbsRead.advance, hq, hrs, hpar]
  cases r.rs with
  | high => exact .ok ⟨hst, rfl, rfl⟩
  | low =>
    cases r.state.params.abs4 with
    | value =>
      rcases hst.writeInput r.q (b + 1) with ⟨s', t', e, e', h'⟩ | ⟨f, e, e'⟩ <;> simp only [e, e']
      · exact .ok ⟨h', rfl, rfl⟩
      · exact .error f
    | pointer => exact .ok ⟨hst, rfl, rfl⟩
    | aligned => exact .ok ⟨hst, rfl, rfl⟩

theorem SameRead.pixel : Agree SameRead r.pixel r'.pixel := by
  have hadv := h.advance
  obtain ⟨hst, hq, hrs⟩ := h
  simp only [AbsRead.pixel, hq, hrs, hst.readInput]
  split
  · exact .error _
  · next b _ =>
    rcases hadv b with ⟨r₁, r₁', e, e', hst₁, hq₁, hrs₁⟩ | ⟨f, e, e'⟩ <;> simp only [e, e']
    · rcases hst₁.emit (nib b r.rs) with ⟨u, u', e, e', hu⟩ | ⟨f, e, e'⟩ <;> simp only [e, e']
      · exact .ok ⟨hu, hq₁, hrs₁⟩
      · exact .error f
    · exact .error f

theorem SameRead.pixels (k : Nat) : Agree SameRead (r.pixels k) (r'.pixels k) := by
  induction k with
  | zero => exact .ok h
  | succ k ih =>
    rw [AbsRead.pixels, AbsRead.pixels]
    rcases ih with ⟨r₁, r₁', e, e', h'⟩ | ⟨f, e, e'⟩ <;> rw [e, e']
    · exact h'.pixel
    · exact .error f

end

section

variable {s t : State} (h : SameStream s t)
include h

theorem SameStream.halt (c : Cause) : SameOutcome (.next (s.halt c)) (.next (t.halt c)) := by
  obtain ⟨X, rfl, hX⟩ := sameStream_iff.1 h
  exact .next ⟨rfl, hX⟩

theorem SameStream.skipPadding (p pad : Nat) : SameOutcome (s.skipPadding p pad) (t.skipPadding p pad) := by
  obtain ⟨X, rfl, hX⟩ := sameStream_iff.1 h
  exact .ite (.next ⟨rfl, hX⟩) (.next ⟨rfl, hX⟩)

theorem SameStream.endOfLine (sh : Shift) : SameOutcome (s.endOfLine sh) (t.endOfLine sh) := by
  obtain ⟨X, rfl, hX⟩ := sameStream_iff.1 h
  exact .ite (.next ⟨rfl, hX⟩) (.next ⟨rfl, hX⟩)

theorem SameStream.endOfBitmap : SameOutcome s.endOfBitmap t.endOfBitmap := by
  obtain ⟨X, rfl, hX⟩ := sameStream_iff.1 h
  exact .next ⟨rfl, hX⟩

theorem SameStream.deltaOperands : t.deltaOperands = s.deltaOperands := by
  have hp : t.p = s.p := by rw [h.1]
  simp only [State.deltaOperands, h.readInput, hp]

theorem SameStream.delta (m : Mode) (sh : Byte → Shift) : SameOutcome (s.delta m sh) (t.delta m sh) := by
  have hops := h.deltaOperands
  obtain ⟨X, rfl, hX⟩ := sameStream_iff.1 h
  refine .ite ?_ (h.halt _)
  rw [hops]
  cases s.deltaOperands with
  | error f => exact .fault f
  | ok ops => exact .ite (.next ⟨rfl, hX⟩) (h.halt _)

theorem SameStream.execRle8Run (count v : Byte) : SameOutcome (execRle8Run count v s) (execRle8Run count v t) := by
  have hloop := h.fillBytes s.d v count.toNat
  obtain ⟨X, rfl, -⟩ := sameStream_iff.1 h
  refine .ite (hloop.finish fun s' t' h' => ?_) (h.halt _)
  obtain ⟨X', rfl, hX⟩ := sameStream_iff.1 h'
  exact .next ⟨rfl, hX⟩

theorem SameStream.execRle8Abs (n : Byte) : SameOutcome (execRle8Abs n s) (execRle8Abs n t) := by
  have hloop := h.copyBytes (s.p + 2) s.d n.toNat
  obtain ⟨X, rfl, -⟩ := sameStream_iff.1 h
  refine .ite (.ite (hloop.finish fun s' t' h' => ?_) (h.halt _)) (h.halt _)
  obtain ⟨X', rfl, hX⟩ := sameStream_iff.1 h'
  exact SameStream.skipPadding ⟨rfl, hX⟩ _ _

theorem SameStream.execRle4Run (count v : Byte) : SameOutcome (execRle4Run count v s) (execRle4Run count v t) := by
  have hloop := h.emitRun v count.toNat
  obtain ⟨X, rfl, -⟩ := sameStream_iff.1 h
  refine .ite (hloop.finish fun s' t' h' => ?_) (h.halt _)
  obtain ⟨X', rfl, hX⟩ := sameStream_iff.1 h'
  exact .next ⟨rfl, hX⟩

theorem SameStream.execRle4Abs (n : Byte) : SameOutcome (execRle4Abs n s) (execRle4Abs n t) := by
  have hloop := SameRead.pixels (r := ⟨s, s.p + 2, .high⟩) (r' := ⟨t, s.p + 2, .high⟩) ⟨h, rfl, rfl⟩ n.toNat
  obtain ⟨X, rfl, -⟩ := sameStream_iff.1 h
  refine .ite (.ite ?_ (h.halt _)) (h.halt _)
  rcases hloop with ⟨r, r', e, e', h', hq, -⟩ | ⟨f, e, e'⟩ <;> simp only [e, e']
  · rw [hq]
    exact h'.skipPadding _ _
  · exact .fault f

theorem SameStream.exec (i : Instr) : SameOutcome (exec i s) (exec i t) := by
  have hsh : t.shift = s.shift := by rw [h.1]
  cases i with
  | rle8Run count v => exact h.execRle8Run count v
  | rle8Eol => simpa only [Machine.exec, execRle8Eol, hsh] using h.endOfLine s.shift
  | rle8Eob => exact h.endOfBitmap
  | rle8Delta => simpa only [Machine.exec, execRle8Delta, hsh] using h.delta .rle8 fun _ => s.shift
  | rle8Abs n => exact h.execRle8Abs n
  | rle4Run count v => exact h.execRle4Run count v
  | rle4Eol => exact h.endOfLine .high
  | rle4Eob => exact h.endOfBitmap
  | rle4Delta => exact h.delta .rle4 _
  | rle4Abs n => exact h.execRle4Abs n

theorem SameStream.fetch : t.fetch = s.fetch := by
  have hread := h.readInput
  obtain ⟨X, rfl, -⟩ := sameStream_iff.1 h
  simp only [State.fetch, hread]
  rfl

/-- What `S` holds beyond `IN_LEN` cannot influence a step, whatever the step ends in (R22, R108). -/
theorem SameStream.step : SameOutcome (step s) (step t) := by
  have hstatus : t.status = s.status := by rw [h.1]
  have hmode : t.mode = s.mode := by rw [h.1]
  cases hs : s.status with
  | idle => simp only [Machine.step, hstatus, hs]; exact .refused _
  | done => simp only [Machine.step, hstatus, hs]; exact .refused _
  | running =>
    rw [step_running hs, step_running (hstatus.trans hs), h.fetch, hmode]
    split
    · exact h.halt _
    · exact .fault _
    · split
      · exact .refused _
      · exact h.exec _

end

/-- Settles O44: the two steps have the same outcome. -/
theorem bytesBeyondTheStreamDoNotMatter : Obligations.BytesBeyondTheStreamDoNotMatter := by
  intro s1 s2 t1 h h1
  have hout := h.step
  rw [h1] at hout
  generalize step s2 = y at hout
  cases hout with
  | next ht => exact ⟨_, rfl, ht⟩

/-! ### Concrete heads (R48 to R52) and what the host reads (R30) -/

/-- Settles O1: each head is decoded by computation. -/
theorem knownHeadsDecode : Obligations.KnownHeadsDecode := by
  unfold Obligations.KnownHeadsDecode
  and_intros <;> rfl

/-- At `DONE` the host reads the value itself (R30). -/
theorem State.whenDone_of_done {s : State} (hs : s.status = .done) (v : Except Refusal Nat) : s.whenDone v = v := by
  simp only [State.whenDone, hs]

/-- Settles O50: the registers are read as their codes, and at `DONE` no read is refused. -/
theorem hostReadsTheResult : Obligations.HostReadsTheResult := by
  intro s
  refine ⟨?_, fun hs => ?_⟩
  · cases hs : s.status <;> simp [hostRead, Status.code, hs]
  · have read := State.whenDone_of_done hs
    refine ⟨(read _).trans ?_, read _, read _, read _, (read _).trans ?_, fun a ha => (read _).trans (if_pos ha)⟩
    · cases s.cause <;> rfl
    · cases s.shift <;> rfl

end Sys2Proof.Machine

/-! The statements of 20_memory.md: what a step leaves of the stream (R41), the padding byte that no rule reads (R35, R77),
and the host's lock-out while the block runs (R43). -/

namespace Sys2Proof.Machine

/-! ### What a command leaves of `S` (R41) -/

theorem State.skipPadding_input {s t : State} {p pad : Nat} (h : s.skipPadding p pad = .next t) : t.S = s.S := by
  rcases s.skipPadding_cases p pad with ⟨-, e⟩ | ⟨-, e⟩ <;> cases e.symm.trans h <;> rfl

theorem State.endOfLine_input {s t : State} {sh : Shift} (h : s.endOfLine sh = .next t) : t.S = s.S := by
  rcases s.endOfLine_cases sh with ⟨-, e⟩ | ⟨-, e⟩ <;> cases e.symm.trans h <;> rfl

theorem State.endOfBitmap_input {s t : State} (h : s.endOfBitmap = .next t) : t.S = s.S := by
  cases h
  rfl

theorem State.delta_input {s t : State} {m : Mode} {sh : Byte → Shift} (h : s.delta m sh = .next t) : t.S = s.S := by
  rcases s.delta_cases m sh with ⟨-, e⟩ | ⟨-, ⟨-, e⟩ | ⟨_, _, -, -, ⟨-, e⟩ | ⟨-, e⟩⟩⟩ <;> cases e.symm.trans h <;> rfl

theorem execRle8Run_input {count v : Byte} {s t : State} (h : execRle8Run count v s = .next t) : t.S = s.S := by
  unfold execRle8Run at h
  split at h
  · next hw =>
    obtain ⟨D', hf, -⟩ := fillBytes_spec s s.d v _ (State.canWrite_le hw)
    obtain ⟨u, hu, hk⟩ := finish_next h
    cases hf.symm.trans hu
    cases hk
    rfl
  · cases h
    rfl

theorem execRle4Run_input {count v : Byte} {s t : State} (h : execRle4Run count v s = .next t) : t.S = s.S := by
  unfold execRle4Run at h
  split at h
  · next hw =>
    obtain ⟨D', hf, -⟩ := emitRun_spec s v count.toNat fun _ => State.pixel_inside hw
    obtain ⟨u, hu, hk⟩ := finish_next h
    cases hf.symm.trans hu
    cases hk
    rfl
  · cases h
    rfl

theorem State.writeOutput_output {s t : State} {a : Nat} {b : Byte} (h : s.writeOutput a b = .ok t) :
    t = { s with D := t.D } := by
  unfold State.writeOutput at h
  split at h <;> cases h
  rfl

/-- A copy that ends well changes `D` only. -/
theorem State.copyBytes_output {s t : State} {q a k : Nat} (h : s.copyBytes q a k = .ok t) : t = { s with D := t.D } := by
  induction k generalizing t with
  | zero => cases h; rfl
  | succ k ih =>
    rw [State.copyBytes] at h
    split at h
    · cases h
    · next u hu =>
      split at h
      · cases h
      · rw [State.writeOutput_output h, ih hu]

theorem execRle8Abs_input {n : Byte} {s t : State} (h : execRle8Abs n s = .next t) : t.S = s.S := by
  unfold execRle8Abs at h
  split at h
  · split at h
    · obtain ⟨u, hu, hk⟩ := finish_next h
      have hS : u.S = s.S := by rw [State.copyBytes_output hu]
      exact (State.skipPadding_input hk).trans hS
    · cases h
      rfl
  · cases h
    rfl

/-- The pixel loop of an RLE4 ABS leaves `S` unless `ABS4_ADVANCE` is `value`, and then it leaves every byte but the one its
read side stands at (R83). -/
theorem AbsRead.pixels_input {s : State} {q k : Nat} {r : AbsRead} (hq : q + ceil2 k ≤ s.inLen.toNat)
    (hd : ∀ i, i < k → (npos s.d s.shift + i) / 2 < s.outLen) (h : AbsRead.pixels ⟨s, q, .high⟩ k = .ok r) :
    (s.params.abs4 ≠ .value → r.state.S = s.S) ∧ ∀ a, a ≠ q → r.state.inByte a = s.inByte a := by
  unfold ceil2 at hq
  by_cases hv : s.params.abs4 = .value
  · refine ⟨absurd hv, fun a ha => ?_⟩
    cases k with
    | zero => cases h; rfl
    | succ k =>
      obtain ⟨b, hb⟩ := AbsRead.pixels_loaded h
      obtain ⟨S', D', hf, -, hi, -⟩ := pixels_value s q (k + 1) b hv (by omega) hb hd
      cases hf.symm.trans h
      exact (hi a).trans (if_neg ha)
  · rcases pixels_moving s q k hv (fun i hi => by omega) hd with ⟨D', hf, -⟩ | ⟨hf, -⟩ <;> cases hf.symm.trans h
    exact ⟨fun _ => rfl, fun _ _ => rfl⟩

theorem execRle4Abs_input {n : Byte} {s t : State} (h : execRle4Abs n s = .next t) :
    (s.params.abs4 ≠ .value → t.S = s.S) ∧ ∀ a, a ≠ s.p + 2 → t.inByte a = s.inByte a := by
  unfold execRle4Abs at h
  split at h
  · next hr =>
    split at h
    · next hw =>
      split at h
      · cases h
      · next r hok =>
        obtain ⟨hS, hbyte⟩ := AbsRead.pixels_input (State.canRead_le hr) (fun _ => State.pixel_inside hw) hok
        have hpad := State.skipPadding_input h
        exact ⟨fun hv => hpad.trans (hS hv), fun a ha => (State.inByte_congr hpad a).trans (hbyte a ha)⟩
    · cases h
      exact ⟨fun _ => rfl, fun _ _ => rfl⟩
  · cases h
    exact ⟨fun _ => rfl, fun _ _ => rfl⟩

/-- No command but an RLE4 ABS writes `S`. -/
theorem exec_input {i : Instr} {s t : State} (hi : ∀ n, i ≠ .rle4Abs n) (h : exec i s = .next t) : t.S = s.S := by
  cases i with
  | rle8Run count v => exact execRle8Run_input h
  | rle8Eol => exact State.endOfLine_input h
  | rle8Eob => exact State.endOfBitmap_input h
  | rle8Delta => exact State.delta_input h
  | rle8Abs n => exact execRle8Abs_input h
  | rle4Run count v => exact execRle4Run_input h
  | rle4Eol => exact State.endOfLine_input h
  | rle4Eob => exact State.endOfBitmap_input h
  | rle4Delta => exact State.delta_input h
  | rle4Abs n => exact absurd rfl (hi n)

/-- Settles O40: a halt of the fetch leaves `S`, and so does every command but an RLE4 ABS, which leaves all of it but the
byte that it increments under `value`. -/
theorem streamIsImmutable : Obligations.StreamIsImmutable := by
  intro s t h
  obtain ⟨-, ⟨c, -, rfl⟩ | ⟨b0, b1, m, hf, hm, he⟩⟩ := step_cases h
  · exact ⟨fun _ => rfl, fun _ => rfl, fun _ _ => rfl⟩
  · obtain ⟨hhead, -⟩ := State.headInstr_of_fetch hf hm
    generalize decodeHead m b0 b1 = i at hhead he
    by_cases hi : ∃ n, i = .rle4Abs n
    · obtain ⟨n, rfl⟩ := hi
      obtain ⟨hS, hbyte⟩ := execRle4Abs_input he
      exact ⟨hS, fun hn => absurd hhead (hn n), hbyte⟩
    · have hS := exec_input (not_exists.1 hi) he
      exact ⟨fun _ => hS, fun _ => hS, fun a _ => State.inByte_congr hS a⟩

/-! ### The padding byte (R35, R77) -/

theorem State.readInput_congr {s t : State} {a : Nat} (hl : t.inLen = s.inLen) (hb : t.inByte a = s.inByte a) :
    t.readInput a = s.readInput a := by
  simp only [State.readInput, hl, hb]

theorem State.writeOutput_replaceInput {s t : State} {a : Nat} {b : Byte} (X : Memory)
    (h : s.writeOutput a b = .ok t) : ({ s with S := X } : State).writeOutput a b = .ok { t with S := X } := by
  unfold State.writeOutput at h
  split at h <;> cases h
  next hlt => exact if_pos hlt

/-- A copy reads its own extent of `S` and nothing else: with another input memory that holds the same bytes there, it
copies the same. -/
theorem State.copyBytes_replaceInput {s t : State} {X : Memory} {q a k : Nat}
    (hX : ∀ i, i < k → Memory.read .input X (q + i) = s.inByte (q + i)) (h : s.copyBytes q a k = .ok t) :
    ({ s with S := X } : State).copyBytes q a k = .ok { t with S := X } := by
  induction k generalizing t with
  | zero => cases h; rfl
  | succ k ih =>
    rw [State.copyBytes] at h ⊢
    split at h
    · cases h
    · next u hu =>
      have hread : ({ u with S := X } : State).readInput (q + k) = u.readInput (q + k) := by
        refine State.readInput_congr rfl ((hX k (Nat.lt_succ_self k)).trans ?_)
        rw [State.copyBytes_output hu]
        rfl
      simp only [ih (fun i hi => hX i (Nat.lt_succ_of_lt hi)) hu, hread]
      split at h
      · cases h
      · exact State.writeOutput_replaceInput X h

theorem State.skipPadding_replaceInput {s t : State} {p pad : Nat} (X : Memory) (h : s.skipPadding p pad = .next t) :
    ({ s with S := X } : State).skipPadding p pad = .next { t with S := X } := by
  rcases s.skipPadding_cases p pad with ⟨hc, e⟩ | ⟨hc, e⟩ <;> cases e.symm.trans h
  · exact if_pos hc
  · exact if_neg (Bool.eq_false_iff.1 hc)

/-- An RLE8 ABS reads its data bytes of `S` and no other, the padding byte neither (R77). -/
theorem execRle8Abs_replaceInput {n : Byte} {s t : State} {X : Memory}
    (hX : ∀ i, i < n.toNat → Memory.read .input X (s.p + 2 + i) = s.inByte (s.p + 2 + i))
    (h : execRle8Abs n s = .next t) : execRle8Abs n { s with S := X } = .next { t with S := X } := by
  unfold execRle8Abs at h ⊢
  split at h
  · next hr =>
    refine (if_pos hr).trans ?_
    split at h
    · next hw =>
      obtain ⟨u, hu, hk⟩ := finish_next h
      refine (if_pos hw).trans ?_
      rw [State.copyBytes_replaceInput hX hu]
      exact State.skipPadding_replaceInput X hk
    · next hw => cases h; exact if_neg hw
  · next hr => cases h; exact if_neg hr

/-- Settles O16: the padding byte lies beyond the data, so storing there keeps every byte that the command reads. -/
theorem paddingByteIsNotRead : Obligations.PaddingByteIsNotRead := by
  intro n b s t h
  exact execRle8Abs_replaceInput (fun i hi => Memory.read_write_other _ _ _ (by omega)) h

/-! ### The host while the block runs (R43) -/

theorem State.whenDone_of_running {s : State} (hs : s.status = .running) (v : Except Refusal Nat) :
    s.whenDone v = .error .hostWhileRunning := by
  simp only [State.whenDone, hs]

theorem State.whenNotRunning_of_running {s : State} (hs : s.status = .running) (v : Except Refusal Nat) :
    s.whenNotRunning v = .error .hostWhileRunning := by
  simp only [State.whenNotRunning, hs]

/-- Of a running block the host reads `STATUS` alone. -/
theorem hostRead_of_running {s : State} {q : HostQuery} (hs : s.status = .running) (hq : q ≠ .status) :
    hostRead q s = .error .hostWhileRunning := by
  have result := State.whenDone_of_running hs
  have config := State.whenNotRunning_of_running hs
  cases q with
  | status => exact absurd rfl hq
  | cause | p | d | line | shift | output => exact result _
  | mode | width | height | pitch | inLen | input => exact config _

/-- A host command that is not refused, other than reset, found a block that does not run. -/
theorem hostExec_not_running {s t : State} {c : HostCmd} (hc : c ≠ .reset) (h : hostExec c s = .next t) :
    s.status ≠ .running := by
  cases c with
  | reset => exact absurd rfl hc
  | writeMode | writeWidth | writeHeight | writePitch | writeInLen => exact (State.hostWrite_cases h).1
  | writeInput =>
    simp only [hostExec] at h
    split at h
    · exact (State.hostWrite_cases h).1
    · cases h
  | start => exact (State.start_cases h).1

/-- Settles O49: a running block answers no host command but reset and no host read but that of `STATUS`. -/
theorem hostLockedOutWhileRunning : Obligations.HostLockedOutWhileRunning := by
  intro s hs
  refine ⟨fun c t hc h => hostExec_not_running hc h hs, fun q v hq h => ?_, ?_⟩
  · cases (hostRead_of_running hs hq).symm.trans h
  · simp only [hostRead, hs, Status.code]

end Sys2Proof.Machine

/-! The statements of 30_encoding.md: heads (R47 to R52), the bytes of whole commands and of streams (R55, R56), what a command
that retires adds to `p` (R55), and the launch of a listing (R57, R112). -/

namespace Sys2Proof

/-! ### Heads (R47 to R52) -/

/-- R54: a byte that selects none of the three short escapes is the `n` of an ABS. -/
theorem three_le_toNat_iff (b : Byte) : 3 ≤ b.toNat ↔ b ≠ 0 ∧ b ≠ 1 ∧ b ≠ 2 := by
  bv_omega

theorem decodeHead_run (m : Mode) {b0 : Byte} (b1 : Byte) (h0 : b0 ≠ 0) :
    decodeHead m b0 b1 = match m with | .rle8 => .rle8Run b0 b1 | .rle4 => .rle4Run b0 b1 := by
  cases m <;> exact if_pos h0

theorem decodeHead_eol (m : Mode) : decodeHead m 0 0 = match m with | .rle8 => .rle8Eol | .rle4 => .rle4Eol := by
  cases m <;> rfl

theorem decodeHead_eob (m : Mode) : decodeHead m 0 1 = match m with | .rle8 => .rle8Eob | .rle4 => .rle4Eob := by
  cases m <;> rfl

theorem decodeHead_delta (m : Mode) :
    decodeHead m 0 2 = match m with | .rle8 => .rle8Delta | .rle4 => .rle4Delta := by
  cases m <;> rfl

theorem decodeHead_abs (m : Mode) {n : Byte} (hn : 3 ≤ n.toNat) :
    decodeHead m 0 n = match m with | .rle8 => .rle8Abs n | .rle4 => .rle4Abs n := by
  obtain ⟨h0, h1, h2⟩ := (three_le_toNat_iff n).1 hn
  cases m <;> simp only [decodeHead, ne_eq, not_true_eq_false, if_false, h0, h1, h2]

/-- R52: the five kinds of head cover every pair of bytes. -/
theorem head_cases (b0 b1 : Byte) :
    b0 ≠ 0 ∨ (b0 = 0 ∧ b1 = 0) ∨ (b0 = 0 ∧ b1 = 1) ∨ (b0 = 0 ∧ b1 = 2) ∨ (b0 = 0 ∧ 3 ≤ b1.toNat) := by
  rw [three_le_toNat_iff]
  tauto

/-- A decoded instruction is well formed and its head is the bytes it was read from. -/
theorem decodeHead_wf_and_encode (m : Mode) (b0 b1 : Byte) :
    (decodeHead m b0 b1).wf = true ∧ encode (decodeHead m b0 b1) = [b0, b1] := by
  rcases head_cases b0 b1 with h | ⟨rfl, rfl⟩ | ⟨rfl, rfl⟩ | ⟨rfl, rfl⟩ | ⟨rfl, h⟩
  · rw [decodeHead_run m b1 h]
    cases m <;> exact ⟨decide_eq_true h, rfl⟩
  · rw [decodeHead_eol]
    cases m <;> exact ⟨rfl, rfl⟩
  · rw [decodeHead_eob]
    cases m <;> exact ⟨rfl, rfl⟩
  · rw [decodeHead_delta]
    cases m <;> exact ⟨rfl, rfl⟩
  · rw [decodeHead_abs m h]
    cases m <;> exact ⟨decide_eq_true h, rfl⟩

/-- The head of a well-formed instruction decodes to it under its own personality. -/
theorem decodeHead_of_encode {i : Instr} {b0 b1 : Byte} (hwf : i.wf = true) (he : encode i = [b0, b1]) :
    decodeHead i.mode b0 b1 = i := by
  cases i with
  | rle8Run | rle4Run => cases he; exact decodeHead_run _ _ (of_decide_eq_true hwf)
  | rle8Eol | rle4Eol => cases he; exact decodeHead_eol _
  | rle8Eob | rle4Eob => cases he; exact decodeHead_eob _
  | rle8Delta | rle4Delta => cases he; exact decodeHead_delta _
  | rle8Abs | rle4Abs => cases he; exact decodeHead_abs _ (of_decide_eq_true hwf)

/-- R52: a pair of bytes is the head of exactly one well-formed instruction of a personality, the decoded one. -/
theorem eq_decodeHead_iff {m : Mode} {b0 b1 : Byte} {i : Instr} :
    i = decodeHead m b0 b1 ↔ i.wf = true ∧ i.mode = m ∧ encode i = [b0, b1] := by
  constructor
  · rintro rfl
    obtain ⟨hwf, he⟩ := decodeHead_wf_and_encode m b0 b1
    exact ⟨hwf, Machine.decodeHead_mode m b0 b1, he⟩
  · rintro ⟨hwf, rfl, he⟩
    exact (decodeHead_of_encode hwf he).symm

/-- Settles O2: the five kinds of head one by one, and the uniqueness of the instruction. -/
theorem everyHeadIsOneCommand : Obligations.EveryHeadIsOneCommand := by
  intro m b0 b1
  refine ⟨decodeHead_run m b1, ?_, ?_, ?_, ?_, fun i => eq_decodeHead_iff.symm⟩
  · rintro rfl rfl; exact decodeHead_eol m
  · rintro rfl rfl; exact decodeHead_eob m
  · rintro rfl rfl; exact decodeHead_delta m
  · rintro rfl h; exact decodeHead_abs m h

/-! ### Whole commands and streams (R55, R56) -/

/-- R47: a head is two bytes. -/
theorem encode_eq_pair (i : Instr) : ∃ b0 b1, encode i = [b0, b1] := by
  cases i <;> exact ⟨_, _, rfl⟩

theorem Command.wf_iff {adv : Abs4Advance} {m : Mode} {c : Command} :
    c.wf adv m = true ↔ c.head.wf = true ∧ c.head.mode = m ∧ c.tail.length = tailLength adv c.head := by
  simp [Command.wf, and_assoc]

/-- R55: the decoder reads a well-formed command off its bytes, whatever follows them. -/
theorem decodeCommand_bytes {adv : Abs4Advance} {m : Mode} {c : Command} (h : c.wf adv m = true) (rest : List Byte) :
    decodeCommand adv m (c.bytes ++ rest) = .ok (c, rest) := by
  obtain ⟨hwf, hm, hlen⟩ := Command.wf_iff.1 h
  obtain ⟨b0, b1, he⟩ := encode_eq_pair c.head
  have hi : decodeHead m b0 b1 = c.head := (eq_decodeHead_iff.2 ⟨hwf, hm, he⟩).symm
  simp [Command.bytes, he, decodeCommand, hi, ← hlen]

/-- R55: what the decoder reads is a well-formed command, and its bytes are the ones it was read from. -/
theorem decodeCommand_ok {adv : Abs4Advance} {m : Mode} {bytes rest : List Byte} {c : Command}
    (h : decodeCommand adv m bytes = .ok (c, rest)) : c.wf adv m = true ∧ c.bytes ++ rest = bytes := by
  unfold decodeCommand at h
  split at h
  · next b0 b1 tail =>
    simp only at h
    split at h <;> cases h
    next hlen =>
    obtain ⟨hwf, hm, he⟩ := eq_decodeHead_iff.1 (rfl : decodeHead m b0 b1 = decodeHead m b0 b1)
    exact ⟨Command.wf_iff.2 ⟨hwf, hm, List.length_take_of_le hlen⟩, by simp [Command.bytes, he]⟩
  · cases h

/-- A stream decodes to its first command and what the rest decodes to (R56). -/
theorem decodeCommands_cons {adv : Abs4Advance} {m : Mode} {k : Nat} {bytes rest : List Byte} {c : Command}
    {cs : List Command} (hc : decodeCommand adv m bytes = .ok (c, rest)) (hcs : decodeCommands adv m k rest = .ok cs) :
    decodeCommands adv m (k + 1) bytes = .ok (c :: cs) := by
  cases bytes with
  | nil => cases hc
  | cons b bs => simp only [decodeCommands, hc, hcs]

/-- The round trip for every fuel that covers the stream: each command takes one of it and has a byte at least. -/
theorem decodeCommands_encodeStream {adv : Abs4Advance} {m : Mode} {cs : List Command}
    (h : ∀ c ∈ cs, c.wf adv m = true) {k : Nat} (hk : (encodeStream cs).length ≤ k) :
    decodeCommands adv m k (encodeStream cs) = .ok cs := by
  induction cs generalizing k with
  | nil => simp [encodeStream, decodeCommands]
  | cons c cs ih =>
    obtain ⟨hc, hcs⟩ := List.forall_mem_cons.1 h
    have hsplit : encodeStream (c :: cs) = c.bytes ++ encodeStream cs := List.flatMap_cons
    have hlen : 0 < c.bytes.length := by
      obtain ⟨b0, b1, he⟩ := encode_eq_pair c.head
      simp [Command.bytes, he]
    rw [hsplit] at hk ⊢
    rw [List.length_append] at hk
    obtain ⟨k, rfl⟩ : ∃ j, k = j + 1 := ⟨k - 1, by omega⟩
    exact decodeCommands_cons (decodeCommand_bytes hc _) (ih hcs (by omega))

/-- Settles O3: the stream's own length is fuel enough. -/
theorem streamDecodesToItsCommands : Obligations.StreamDecodesToItsCommands :=
  fun _ _ _ h => decodeCommands_encodeStream h le_rfl

/-- What the decoder reads with any fuel are well-formed commands, and their bytes are the stream. -/
theorem encodeStream_of_decodeCommands {adv : Abs4Advance} {m : Mode} {k : Nat} {bytes : List Byte} {cs : List Command}
    (h : decodeCommands adv m k bytes = .ok cs) : encodeStream cs = bytes ∧ ∀ c ∈ cs, c.wf adv m = true := by
  induction k generalizing bytes cs with
  | zero => cases bytes <;> cases h; exact ⟨rfl, nofun⟩
  | succ k ih =>
    cases bytes with
    | nil => cases h; exact ⟨rfl, nofun⟩
    | cons b bs =>
      rw [decodeCommands] at h
      split at h
      · cases h
      · next c rest hc =>
        split at h <;> cases h
        next tail htail =>
        obtain ⟨hwf, hbytes⟩ := decodeCommand_ok hc
        obtain ⟨hrest, hall⟩ := ih htail
        refine ⟨?_, List.forall_mem_cons.2 ⟨hwf, hall⟩⟩
        calc encodeStream (c :: tail) = c.bytes ++ encodeStream tail := List.flatMap_cons
          _ = c.bytes ++ rest := by rw [hrest]
          _ = b :: bs := hbytes

/-- Settles O4: the fuel of `decodeStream` is one of those the lemma covers. -/
theorem decodedStreamIsTheBytes : Obligations.DecodedStreamIsTheBytes :=
  fun _ _ _ _ h => encodeStream_of_decodeCommands h

end Sys2Proof

namespace Sys2Proof.Machine

/-! ### What a command that retires adds to `p` (R55) -/

/-- If `t` still runs or has met EOB, as after a command that retires, its `p` is `n` beyond that of `s`. -/
def State.RetiresBy (s : State) (n : Nat) (t : State) : Prop :=
  t.status = .running ∨ t.cause = .eob → t.p = s.p + n

theorem State.RetiresBy.of_p {s t : State} {n : Nat} (h : t.p = s.p + n) : s.RetiresBy n t := fun _ => h

/-- A halt other than EOB does not retire (R95). -/
theorem State.RetiresBy.of_halt {s u t : State} {n : Nat} {c : Cause} (hc : c ≠ .eob)
    (h : (.next (u.halt c) : Result) = .next t) : s.RetiresBy n t := by
  cases h
  rintro (h | h)
  · cases h
  · exact absurd h hc

theorem PixelFrame.p_eq {s t : State} (h : PixelFrame s t) : t.p = s.p := by
  rw [show t = _ from h]

theorem State.endOfLine_retiresBy {s t : State} {sh : Shift} (h : s.endOfLine sh = .next t) : s.RetiresBy 2 t := by
  rcases s.endOfLine_cases sh with ⟨-, e⟩ | ⟨-, e⟩
  · cases e.symm.trans h
    exact .of_p rfl
  · exact .of_halt (by decide) (e.symm.trans h)

theorem State.endOfBitmap_retiresBy {s t : State} (h : s.endOfBitmap = .next t) : s.RetiresBy 2 t := by
  cases h
  exact .of_p rfl

theorem State.delta_retiresBy {s t : State} {m : Mode} {sh : Byte → Shift} (h : s.delta m sh = .next t) :
    s.RetiresBy 4 t := by
  rcases s.delta_cases m sh with ⟨-, e⟩ | ⟨-, ⟨-, e⟩ | ⟨dx, dy, -, -, ⟨-, e⟩ | ⟨-, e⟩⟩⟩
  · exact .of_halt (by decide) (e.symm.trans h)
  · cases e.symm.trans h
  · cases e.symm.trans h
    exact .of_p rfl
  · exact .of_halt (by decide) (e.symm.trans h)

/-- An ABS that retires ends beyond its data and padding; one that lacks its padding halts (R77, R88). -/
theorem State.skipPadding_retiresBy {s u t : State} {q pad n : Nat} (hn : q + pad = s.p + n)
    (h : u.skipPadding q pad = .next t) : s.RetiresBy n t := by
  rcases u.skipPadding_cases q pad with ⟨-, e⟩ | ⟨-, e⟩
  · cases e.symm.trans h
    exact .of_p hn
  · exact .of_halt (u := { u with p := q }) (c := .oobIn) (by decide) (e.symm.trans h)

theorem execRle8Run_retiresBy {count v : Byte} {s t : State} (h : execRle8Run count v s = .next t) :
    s.RetiresBy 2 t := by
  unfold execRle8Run at h
  split at h
  · obtain ⟨u, hu, hk⟩ := finish_next h
    cases hk
    exact .of_p (congrArg (· + 2) (State.fillBytes_frame hu).p_eq)
  · exact .of_halt (by decide) h

theorem execRle4Run_retiresBy {count v : Byte} {s t : State} (h : execRle4Run count v s = .next t) :
    s.RetiresBy 2 t := by
  unfold execRle4Run at h
  split at h
  · obtain ⟨u, hu, hk⟩ := finish_next h
    cases hk
    exact .of_p (congrArg (· + 2) (State.emitRun_frame hu).p_eq)
  · exact .of_halt (by decide) h

theorem execRle8Abs_retiresBy {n : Byte} {s t : State} (h : execRle8Abs n s = .next t) :
    s.RetiresBy (2 + (n.toNat + n.toNat % 2)) t := by
  unfold execRle8Abs at h
  split at h
  · split at h
    · obtain ⟨u, -, hk⟩ := finish_next h
      exact State.skipPadding_retiresBy (by omega) hk
    · exact .of_halt (by decide) h
  · exact .of_halt (by decide) h

/-- Where the read offset of an RLE4 ABS stands after `k` pixels (R83). -/
theorem AbsRead.pixels_q {s : State} {q k : Nat} {r : AbsRead} (hq : q + ceil2 k ≤ s.inLen.toNat)
    (hd : ∀ i, i < k → (npos s.d s.shift + i) / 2 < s.outLen) (h : AbsRead.pixels ⟨s, q, .high⟩ k = .ok r) :
    r.q = if s.params.abs4 = .value then q else q + k / 2 := by
  unfold ceil2 at hq
  by_cases hv : s.params.abs4 = .value
  · rw [if_pos hv]
    cases k with
    | zero => cases h; rfl
    | succ k =>
      obtain ⟨b, hb⟩ := AbsRead.pixels_loaded h
      obtain ⟨S', D', hf, -⟩ := pixels_value s q (k + 1) b hv (by omega) hb hd
      cases hf.symm.trans h
      rfl
  · rw [if_neg hv]
    rcases pixels_moving s q k hv (fun i hi => by omega) hd with ⟨D', hf, -⟩ | ⟨hf, -⟩ <;> cases hf.symm.trans h
    rfl

/-- R51, R88: the end of the data and the padding after it make up the bytes that the command consumes. -/
theorem abs4End_add_abs4Pad (adv : Abs4Advance) (p n : Nat) :
    abs4End adv p (if adv = .value then p + 2 else p + 2 + n / 2) n + abs4Pad adv n = p + (2 + abs4Consumed adv n) := by
  cases adv <;> simp [abs4End, abs4Pad, abs4Consumed] <;> omega

theorem execRle4Abs_retiresBy {n : Byte} {s t : State} (h : execRle4Abs n s = .next t) :
    s.RetiresBy (2 + abs4Consumed s.params.abs4 n.toNat) t := by
  unfold execRle4Abs at h
  split at h
  · next hr =>
    split at h
    · next hw =>
      split at h
      · cases h
      · next r hok =>
        have hq := AbsRead.pixels_q (State.canRead_le hr) (fun _ => State.pixel_inside hw) hok
        refine State.skipPadding_retiresBy ?_ h
        rw [hq, abs4End_add_abs4Pad]
    · exact .of_halt (by decide) h
  · exact .of_halt (by decide) h

/-- A command that retires adds its length to `p`. -/
theorem exec_retiresBy {i : Instr} {s t : State} (h : exec i s = .next t) :
    s.RetiresBy (commandLength s.params.abs4 i) t := by
  cases i with
  | rle8Run count v => exact execRle8Run_retiresBy h
  | rle8Eol => exact State.endOfLine_retiresBy h
  | rle8Eob => exact State.endOfBitmap_retiresBy h
  | rle8Delta => exact State.delta_retiresBy h
  | rle8Abs n => exact execRle8Abs_retiresBy h
  | rle4Run count v => exact execRle4Run_retiresBy h
  | rle4Eol => exact State.endOfLine_retiresBy h
  | rle4Eob => exact State.endOfBitmap_retiresBy h
  | rle4Delta => exact State.delta_retiresBy h
  | rle4Abs n => exact execRle4Abs_retiresBy h

/-- A halt of the fetch is not EOB (R62). -/
theorem State.cause_ne_eob_of_fetch_halted {s : State} {c : Cause} (hf : s.fetch = .halted c) : c ≠ .eob := by
  rcases s.fetch_cases with ⟨e, -⟩ | ⟨e, -⟩ | ⟨e, -⟩ | ⟨_, _, e, -⟩ <;> cases e.symm.trans hf <;> decide

/-- Settles O5: the lengths by computation but for the two forms of `n / 2` rounded up, and the rest command by command. -/
theorem retireAddsTheLength : Obligations.RetireAddsTheLength := by
  refine ⟨fun adv count v n => ⟨rfl, rfl, rfl, rfl, rfl, rfl, rfl, rfl, rfl, ?_, rfl, rfl⟩, fun s t h hend => ?_⟩
  · simp only [commandLength, tailLength, abs4Consumed]
    omega
  · obtain ⟨-, ⟨c, hf, rfl⟩ | ⟨b0, b1, m, hf, hm, he⟩⟩ := step_cases h
    · rcases hend with hr | hc
      · cases hr
      · exact absurd hc (State.cause_ne_eob_of_fetch_halted hf)
    · exact ⟨_, (State.headInstr_of_fetch hf hm).1, exec_retiresBy he hend⟩

/-! ### The launch of a listing (R57, R61, R108 to R112) -/

/-- A host write is not refused when the block does not run (R43). -/
theorem State.hostWrite_of_not_running {s : State} (hs : s.status ≠ .running) (t : State) : s.hostWrite t = .next t := by
  unfold State.hostWrite
  split
  · contradiction
  · rfl

/-- START is not refused when the block does not run and the configuration is legal (R61). -/
theorem State.start_of_legalMode {s : State} {m : Mode} (hs : s.status ≠ .running) (hm : s.legalMode = some m) :
    s.start = .next (s.started m) := by
  unfold State.start
  split
  · contradiction
  · rw [hm]

theorem hostExecAll_cons {c : HostCmd} {cs : List HostCmd} {s t : State} (h : hostExec c s = .next t) :
    hostExecAll (c :: cs) s = hostExecAll cs t := by
  simp only [hostExecAll, h]

/-- The commands that load bytes below `MAX_IN` into a block that does not run write those bytes, keep every cell below
them, and change nothing but `S` (R108). -/
theorem hostExecAll_loadCommands {s : State} (hs : s.status ≠ .running) {a : Nat} {bs : List Byte}
    (ha : a + bs.length ≤ s.params.maxIn) (cs : List HostCmd) :
    ∃ S', hostExecAll (loadCommands a bs ++ cs) s = hostExecAll cs { s with S := S' } ∧
      (∀ x, x < a → Memory.read .input S' x = s.inByte x) ∧
      ∀ i (h : i < bs.length), Memory.read .input S' (a + i) = some bs[i] := by
  induction bs generalizing s a with
  | nil => exact ⟨s.S, rfl, fun _ _ => rfl, nofun⟩
  | cons b bs ih =>
    rw [List.length_cons] at ha
    have hwrite : hostExec (.writeInput a b) s = .next { s with S := Memory.write .input s.S a b } :=
      (if_pos (by omega)).trans (State.hostWrite_of_not_running hs _)
    obtain ⟨S', hall, hbelow, hload⟩ :=
      ih (s := { s with S := Memory.write .input s.S a b }) (a := a + 1) hs (by simp only; omega)
    refine ⟨S', (hostExecAll_cons hwrite).trans hall, fun x hx => ?_, fun i hi => ?_⟩
    · exact (hbelow x (by omega)).trans (Memory.read_write_other _ _ _ (by omega))
    · cases i with
      | zero => exact (hbelow a (by omega)).trans (Memory.read_write_same _ _ _ _)
      | succ i =>
        have := hload i (by simpa using hi)
        rwa [show a + 1 + i = a + (i + 1) by omega] at this

/-- The commands of a launch after the load: the configuration and START. -/
def configureCommands (l : Listing) : List HostCmd :=
  [.writeMode l.mode.code, .writeWidth l.width, .writeHeight l.height, .writePitch l.pitch,
    .writeInLen (BitVec.ofNat 32 l.bytes.length), .start]

theorem launchCommands_eq (l : Listing) : launchCommands l = loadCommands 0 l.bytes ++ configureCommands l := rfl

/-- The block that the host has configured for a listing, its bytes being in the input memory `S'`, before START. -/
def State.configured (s : State) (l : Listing) (S' : Memory) : State :=
  { s with
    S := S', mode := l.mode.code, width := l.width, height := l.height, pitch := l.pitch
    inLen := BitVec.ofNat 32 l.bytes.length }

/-- A block that does not run is configured and, when the configuration is legal, started (R61, R112). -/
theorem hostExecAll_configure {s : State} (hs : s.status ≠ .running) (l : Listing) (S' : Memory)
    (hm : (s.configured l S').legalMode = some l.mode) :
    hostExecAll (configureCommands l) { s with S := S' } = .next ((s.configured l S').started l.mode) := by
  iterate 5 refine Eq.trans (hostExecAll_cons (State.hostWrite_of_not_running hs _)) ?_
  exact hostExecAll_cons (State.start_of_legalMode hs hm)

/-- Settles O51: the load, the configuration, which fits the caps and so is legal, and START. -/
theorem launchLoadsAndStarts : Obligations.LaunchLoadsAndStarts := by
  intro c l hlen hin hout
  have hidle : (State.resetOf c).status ≠ .running := nofun
  obtain ⟨S', hload, -, hbytes⟩ :=
    hostExecAll_loadCommands hidle ((Nat.zero_add _).trans_le hin) (configureCommands l)
  simp only [Nat.zero_add] at hbytes
  have hinLen : (BitVec.ofNat 32 l.bytes.length).toNat = l.bytes.length := by
    rw [BitVec.toNat_ofNat, Nat.mod_eq_of_lt hlen]
  have hlegal : ((State.resetOf c).configured l S').legalMode = some l.mode := by
    have hcode : Mode.ofCode ((State.resetOf c).configured l S').mode = some l.mode := Mode.ofCode_code l.mode
    simp only [State.legalMode, hcode]
    exact if_pos ⟨hout, hinLen.trans_le hin⟩
  rw [launchCommands_eq, hload]
  refine ⟨_, hostExecAll_configure hidle l S' hlegal, rfl, rfl, fun a ha => ?_, hinLen,
    Mode.ofCode_code l.mode, rfl, rfl, rfl, rfl, rfl, hbytes⟩
  have hread := hbytes a (hinLen ▸ ha)
  exact Option.isSome_of_eq_some hread

end Sys2Proof.Machine

/-! The statements of 40_sequencer.md: the totality of a step (R64), the progress and the termination of a run (R66), the fetch
and the dispatch (R62, R63), the block that does not run (R65), and START (R61). -/

namespace Sys2Proof.Machine

/-! ### The totality of a step (R64) -/

/-- The outcome is a next state whose stream is loaded: no fault and no refusal. -/
def NextLoaded (r : Result) : Prop := ∃ t, r = .next t ∧ t.Loaded

theorem NextLoaded.next {t : State} (h : t.Loaded) : NextLoaded (.next t) := ⟨t, rfl, h⟩

theorem NextLoaded.ite {c : Prop} [Decidable c] {x y : Result} (hx : c → NextLoaded x) (hy : NextLoaded y) :
    NextLoaded (if c then x else y) := by
  split
  · next hc => exact hx hc
  · exact hy

section

variable {s : State} (hl : s.Loaded)
include hl

theorem State.Loaded.inByte {a : Nat} (ha : a < s.inLen.toNat) : ∃ b, s.inByte a = some b :=
  Option.isSome_iff_exists.1 (hl a ha)

theorem State.Loaded.skipPadding (p pad : Nat) : NextLoaded (s.skipPadding p pad) :=
  .ite (fun _ => .next hl) (.next hl)

theorem State.Loaded.endOfLine (sh : Shift) : NextLoaded (s.endOfLine sh) :=
  .ite (fun _ => .next hl) (.next hl)

/-- A DELTA finds its operands loaded, since its check puts them inside the stream. -/
theorem State.Loaded.delta (m : Mode) (sh : Byte → Shift) : NextLoaded (s.delta m sh) := by
  rcases s.delta_cases m sh with ⟨-, e⟩ | ⟨hc, ⟨hnone, -⟩ | ⟨_, _, -, -, ⟨-, e⟩ | ⟨-, e⟩⟩⟩
  · exact ⟨_, e, hl⟩
  · have hle := State.canRead_le hc
    obtain ⟨dx, hx⟩ := hl.inByte (a := s.p + 2) (by omega)
    obtain ⟨dy, hy⟩ := hl.inByte (a := s.p + 3) (by omega)
    simp [hx, hy] at hnone
  · exact ⟨_, e, hl⟩
  · exact ⟨_, e, hl⟩

theorem State.Loaded.execRle8Run (count v : Byte) : NextLoaded (execRle8Run count v s) := by
  refine .ite (fun hw => ?_) (.next hl)
  obtain ⟨D', hf, -⟩ := fillBytes_spec s s.d v _ (State.canWrite_le hw)
  rw [hf]
  exact .next hl

theorem State.Loaded.execRle8Abs (n : Byte) : NextLoaded (execRle8Abs n s) := by
  refine .ite (fun hr => .ite (fun hw => ?_) (.next hl)) (.next hl)
  have hrle := State.canRead_le hr
  rcases copyBytes_spec s (s.p + 2) s.d n.toNat hrle (State.canWrite_le hw) with ⟨D', hf, -⟩ | ⟨-, i, hi, hnone⟩
  · rw [hf]
    exact State.Loaded.skipPadding (s := { s with d := s.d + n.toNat, D := D' }) hl _ _
  · obtain ⟨b, hb⟩ := hl.inByte (a := s.p + 2 + i) (by omega)
    cases hnone.symm.trans hb

theorem State.Loaded.execRle4Run (count v : Byte) : NextLoaded (execRle4Run count v s) := by
  refine .ite (fun hw => ?_) (.next hl)
  obtain ⟨D', hf, -⟩ := emitRun_spec s v count.toNat fun _ => State.pixel_inside hw
  rw [hf]
  exact .next hl

/-- The pixel loop of an RLE4 ABS whose data are inside a loaded stream ends well, and the stream stays loaded: the byte
that it increments under `value` holds a value again (R83). -/
theorem AbsRead.pixels_of_loaded {q k : Nat} (hq : q + ceil2 k ≤ s.inLen.toNat)
    (hd : ∀ i, i < k → (npos s.d s.shift + i) / 2 < s.outLen) :
    ∃ r, AbsRead.pixels ⟨s, q, .high⟩ k = .ok r ∧ r.state.Loaded := by
  unfold ceil2 at hq
  by_cases hv : s.params.abs4 = .value
  · cases k with
    | zero => exact ⟨_, rfl, hl⟩
    | succ k =>
      obtain ⟨b, hb⟩ := hl.inByte (a := q) (by omega)
      obtain ⟨S', D', hf, -, hbyte, -⟩ := pixels_value s q (k + 1) b hv (by omega) hb hd
      refine ⟨_, hf, fun a ha => ?_⟩
      refine (congrArg Option.isSome (hbyte a)).trans ?_
      split
      · rfl
      · exact hl a ha
  · rcases pixels_moving s q k hv (fun i hi => by omega) hd with ⟨D', hf, -⟩ | ⟨-, i, hi, hnone⟩
    · exact ⟨_, hf, hl⟩
    · obtain ⟨b, hb⟩ := hl.inByte (a := q + i / 2) (by omega)
      cases hnone.symm.trans hb

theorem State.Loaded.execRle4Abs (n : Byte) : NextLoaded (execRle4Abs n s) := by
  refine .ite (fun hr => .ite (fun hw => ?_) (.next hl)) (.next hl)
  obtain ⟨r, hok, hr'⟩ := AbsRead.pixels_of_loaded hl (State.canRead_le hr) fun _ => State.pixel_inside hw
  rw [hok]
  exact State.Loaded.skipPadding hr' _ _

/-- Every command of a loaded stream has a successor, wherever it stands, and the stream stays loaded. -/
theorem State.Loaded.exec (i : Instr) : NextLoaded (exec i s) := by
  cases i with
  | rle8Run count v => exact hl.execRle8Run count v
  | rle8Eol => exact hl.endOfLine _
  | rle8Eob => exact .next hl
  | rle8Delta => exact hl.delta _ _
  | rle8Abs n => exact hl.execRle8Abs n
  | rle4Run count v => exact hl.execRle4Run count v
  | rle4Eol => exact hl.endOfLine _
  | rle4Eob => exact .next hl
  | rle4Delta => exact hl.delta _ _
  | rle4Abs n => exact hl.execRle4Abs n

/-- The fetch of a loaded stream does not stop at an unloaded cell: it reads inside the stream only (R62). -/
theorem State.Loaded.fetch_ne_stopped (f : Fault) : s.fetch ≠ .stopped f := by
  rcases s.fetch_cases with ⟨e, -⟩ | ⟨e, -⟩ | ⟨-, hp, -, hnone | ⟨hr, hnone⟩⟩ | ⟨_, _, e, -⟩
  · rw [e]; nofun
  · rw [e]; nofun
  · obtain ⟨b, hb⟩ := hl.inByte hp
    cases hnone.symm.trans hb
  · obtain ⟨b, hb⟩ := hl.inByte (State.canRead_le hr)
    cases hnone.symm.trans hb
  · rw [e]; nofun

end

/-- Settles O9: the fetch halts the block or finds a head, `MODE` is legal, and the command has a successor. -/
theorem everyRunningStepSucceeds : Obligations.EveryRunningStepSucceeds := by
  intro s hs hm hl
  obtain ⟨m, hm⟩ := Option.isSome_iff_exists.1 hm
  rw [step_running hs]
  cases hf : s.fetch with
  | halted c => exact ⟨_, rfl, hl⟩
  | stopped f => exact absurd hf (hl.fetch_ne_stopped f)
  | head b0 b1 =>
    simp only [hm]
    exact hl.exec _

/-! ### Progress and termination (R66) -/

theorem two_le_commandLength (adv : Abs4Advance) (i : Instr) : 2 ≤ commandLength adv i := Nat.le_add_right 2 _

/-- A step that does not halt leaves a running block: no step goes back to `IDLE` (R97). -/
theorem status_running_of_step {s t : State} (h : step s = .next t) (hd : t.status ≠ .done) :
    t.status = .running := by
  have hidle : t.status ≠ .idle := by
    obtain ⟨hs, ⟨c, -, rfl⟩ | ⟨i, -, -, he⟩⟩ := step_effect h
    · exact absurd rfl hd
    · exact he.status_ne_idle hs
  cases ht : t.status with
  | idle => exact absurd ht hidle
  | running => rfl
  | done => exact absurd ht hd

/-- Settles O35: a step that does not halt retires a command of two bytes at least, and a command leaves `p` inside the
stream. -/
theorem stepConsumesTwoBytes : Obligations.StepConsumesTwoBytes := by
  intro s t h hd
  obtain ⟨i, -, hp⟩ := retireAddsTheLength.2 s t h (.inl (status_running_of_step h hd))
  have hlen := two_le_commandLength s.params.abs4 i
  refine ⟨by omega, ?_⟩
  obtain ⟨-, ⟨c, -, rfl⟩ | ⟨j, -, -, he⟩⟩ := step_effect h
  · exact absurd rfl hd
  · exact he.p_bounds.2

theorem core_run_succ {s t : State} (h : step s = .next t) (k : Nat) : core.run (k + 1) s = core.run k t := by
  have hcore : core.step s = .next t := h
  simp only [Host.Core.run, hcore]

/-- Settles O43, by induction on half the remaining stream: each step succeeds, and one that does not halt brings `p` two
bytes nearer to `IN_LEN` at least. -/
theorem everyRunTerminates : Obligations.EveryRunTerminates := by
  intro s hs hm hl
  induction hn : (s.inLen.toNat - s.p) / 2 using Nat.strong_induction_on generalizing s with
  | _ n ih =>
    subst hn
    obtain ⟨t, h, htl⟩ := everyRunningStepSucceeds s hs hm hl
    by_cases hd : t.status = .done
    · exact ⟨1, t, by omega, core_run_succ h 0, hd⟩
    · obtain ⟨hp, hle⟩ := stepConsumesTwoBytes s t h hd
      obtain ⟨-, hmode, -, -, -, hlen, -⟩ := setupConstantWhileRunning s t h
      obtain ⟨k, u, hk, hu, hdone⟩ :=
        ih _ (by rw [hlen]; omega) t (status_running_of_step h hd) (hmode ▸ hm) htl rfl
      rw [hlen] at hk
      exact ⟨k + 1, u, by omega, (core_run_succ h k).trans hu, hdone⟩

/-! ### Fetch and dispatch (R62, R63, R65) -/

/-- The decoder and the dispatch agree on what the two head bytes are the head of (R52). -/
theorem eq_decodeHead_of_decode {mode : BitVec 2} {b0 b1 : Byte} {i : Instr} (h : decode mode [b0, b1] = .ok i) :
    ∃ m, Mode.ofCode mode = some m ∧ i = decodeHead m b0 b1 := by
  unfold decode at h
  split at h
  · cases h
  · next m hm => cases h; exact ⟨m, hm, rfl⟩

theorem step_of_fetch_halted {s : State} {c : Cause} (hs : s.status = .running) (hf : s.fetch = .halted c) :
    step s = .next (s.halt c) := by
  rw [step_running hs, hf]

theorem step_of_fetch_head {s : State} {b0 b1 : Byte} {m : Mode} (hs : s.status = .running)
    (hf : s.fetch = .head b0 b1) (hm : Mode.ofCode s.mode = some m) : step s = exec (decodeHead m b0 b1) s := by
  rw [step_running hs, hf]
  simp only [hm]

theorem State.fetch_of_stream_used_up {s : State} (hp : ¬ s.p < s.inLen.toNat) : s.fetch = .halted .oobIn :=
  if_pos hp

theorem State.fetch_of_output_full {s : State} (hp : s.p < s.inLen.toNat) (hfull : s.params.haltOutFull = true)
    (hd : ¬ s.d < s.outLen) : s.fetch = .halted .outFull :=
  (if_neg (not_not.2 hp)).trans (if_pos ⟨hfull, hd⟩)

/-- The fetch when the first two tests pass and the first byte is loaded: the third test, and the second byte (R62). -/
theorem State.fetch_of_first_byte {s : State} {b0 : Byte} (hp : s.p < s.inLen.toNat)
    (hfull : ¬ (s.params.haltOutFull = true ∧ ¬ s.d < s.outLen)) (h0 : s.inByte s.p = some b0) :
    (s.canRead (s.p + 1) 1 = false → s.fetch = .halted .oobIn) ∧
      (s.canRead (s.p + 1) 1 = true → ∀ b1, s.inByte (s.p + 1) = some b1 → s.fetch = .head b0 b1) := by
  rcases s.fetch_cases with ⟨e, hnp | ⟨hr, -⟩⟩ | ⟨-, -, hf⟩ | ⟨-, -, -, hnone | ⟨hr, hnone⟩⟩ |
    ⟨c0, c1, e, -, -, hr, g0, g1⟩
  · exact absurd hp hnp
  · exact ⟨fun _ => e, fun hr' => (nomatch hr.symm.trans hr')⟩
  · exact absurd hf hfull
  · cases hnone.symm.trans h0
  · exact ⟨fun hr' => (nomatch hr.symm.trans hr'), fun _ b1 h1 => (nomatch hnone.symm.trans h1)⟩
  · refine ⟨fun hr' => (nomatch hr.symm.trans hr'), fun _ b1 h1 => ?_⟩
    cases g0.symm.trans h0
    cases g1.symm.trans h1
    exact e

/-- Settles O7: each test of the fetch that fails halts the block, and a fetched head is dispatched. -/
theorem stepFetchesThenDispatches : Obligations.StepFetchesThenDispatches := by
  intro s hs
  refine ⟨fun hp => ?_, fun hp hfull hd => ?_, fun hp hfull b0 h0 => ?_⟩
  · exact step_of_fetch_halted hs (State.fetch_of_stream_used_up hp)
  · exact step_of_fetch_halted hs (State.fetch_of_output_full hp hfull hd)
  · obtain ⟨hcut, hhead⟩ := State.fetch_of_first_byte hp hfull h0
    refine ⟨fun hr => step_of_fetch_halted hs (hcut hr), fun hr b1 i h1 hi => ?_⟩
    obtain ⟨m, hm, rfl⟩ := eq_decodeHead_of_decode hi
    exact step_of_fetch_head hs (hhead hr b1 h1) hm

/-- Settles O8: by the two values of `STATUS` that remain. -/
theorem noMoveUnlessRunning : Obligations.NoMoveUnlessRunning := by
  intro s hs
  unfold step
  split
  · rfl
  · rfl
  · contradiction

/-! ### START (R61) -/

theorem State.start_of_running {s : State} (hs : s.status = .running) : s.start = .refused .startWhileRunning := by
  simp only [State.start, hs]

theorem State.start_of_illegal {s : State} (hs : s.status ≠ .running) (hm : s.legalMode = none) :
    s.start = .refused .startIllegal := by
  unfold State.start
  split
  · contradiction
  · rw [hm]

/-- R8: under a `MODE` that selects a personality, the configuration is legal exactly when both lengths fit the caps. -/
theorem State.legalMode_of_ofCode {s : State} {m : Mode} (hm : Mode.ofCode s.mode = some m) :
    s.legalMode =
      if s.newOutLen m ≤ s.params.maxOut ∧ s.inLen.toNat ≤ s.params.maxIn then some m else none := by
  simp only [State.legalMode, hm]

/-- Settles O46: refused while running or under an illegal configuration, and otherwise the state `State.started`, whose
`D` lists nothing. -/
theorem startEffect : Obligations.StartEffect := by
  intro s
  refine ⟨State.start_of_running, fun hs => ⟨fun hnone => ?_, fun m hm rb hrb => ?_⟩⟩
  · exact State.start_of_illegal hs (by simp only [State.legalMode, hnone])
  · obtain rfl : rb = s.newRowBytes m := by cases m <;> exact hrb
    refine ⟨fun hcaps => ?_, fun hout hin => ?_⟩
    · exact State.start_of_illegal hs ((State.legalMode_of_ofCode hm).trans (if_neg hcaps))
    · have hlegal : s.legalMode = some m := (State.legalMode_of_ofCode hm).trans (if_pos ⟨hout, hin⟩)
      exact ⟨s.started m, State.start_of_legalMode hs hlegal, rfl, fun _ => rfl⟩

end Sys2Proof.Machine

/-! The statements of 41_rle8.md: the results of the five RLE8 commands (R73 to R77), what the commands without pixels and the
RLE8 stores leave unchanged, and which bytes of `D` a step can change (R78, R89). -/

namespace Sys2Proof.Machine

/-! ### What each RLE8 command answers (R73 to R77) -/

/-- An RLE8 RUN halts with nothing written, or fills its extent and retires (R73). -/
theorem execRle8Run_cases (count v : Byte) (s : State) :
    (s.canWrite s.d count.toNat = false ∧ execRle8Run count v s = .next (s.halt .oobOut)) ∨
    (s.canWrite s.d count.toNat = true ∧ ∃ D',
      execRle8Run count v s = .next { s with p := s.p + 2, d := s.d + count.toNat, D := D' } ∧
      ∀ a, ({ s with D := D' } : State).outByte a = if s.d ≤ a ∧ a < s.d + count.toNat then v else s.outByte a) := by
  unfold execRle8Run
  cases hw : s.canWrite s.d count.toNat with
  | false => exact .inl ⟨rfl, rfl⟩
  | true =>
    obtain ⟨D', hf, -, hx⟩ := fillBytes_spec s s.d v _ (State.canWrite_le hw)
    exact .inr ⟨rfl, D', by rw [hf]; rfl, hx⟩

/-- An RLE8 ABS halts with nothing copied, finds a data byte unloaded, or copies its data and goes on to the padding (R77). -/
theorem execRle8Abs_cases (n : Byte) (s : State) :
    (s.canRead (s.p + 2) n.toNat = false ∧ execRle8Abs n s = .next (s.halt .oobIn)) ∨
    (s.canRead (s.p + 2) n.toNat = true ∧ s.canWrite s.d n.toNat = false ∧
      execRle8Abs n s = .next (s.halt .oobOut)) ∨
    (s.canRead (s.p + 2) n.toNat = true ∧ s.canWrite s.d n.toNat = true ∧
      ((execRle8Abs n s = .fault .inputUnloaded ∧ ∃ i, i < n.toNat ∧ s.inByte (s.p + 2 + i) = none) ∨
      ∃ D', execRle8Abs n s =
          ({ s with d := s.d + n.toNat, D := D' } : State).skipPadding (s.p + 2 + n.toNat) (n.toNat % 2) ∧
        ∀ a, ({ s with D := D' } : State).outByte a =
          if s.d ≤ a ∧ a < s.d + n.toNat then (s.inByte (s.p + 2 + (a - s.d))).getD 0 else s.outByte a)) := by
  unfold execRle8Abs
  cases hr : s.canRead (s.p + 2) n.toNat with
  | false => exact .inl ⟨rfl, rfl⟩
  | true =>
    cases hw : s.canWrite s.d n.toNat with
    | false => exact .inr (.inl ⟨rfl, rfl, rfl⟩)
    | true =>
      refine .inr (.inr ⟨rfl, rfl, ?_⟩)
      rcases copyBytes_spec s (s.p + 2) s.d n.toNat (State.canRead_le hr) (State.canWrite_le hw) with
        ⟨D', hf, -, hx⟩ | ⟨hf, hnone⟩
      · exact .inr ⟨D', by rw [hf]; rfl, hx⟩
      · exact .inl ⟨by rw [hf]; rfl, hnone⟩

/-- Settles O10: by the outcome of the write check. -/
theorem rle8RunResult : Obligations.Rle8RunResult := by
  intro count v s
  rcases execRle8Run_cases count v s with ⟨hw, e⟩ | ⟨hw, D', e, hx⟩
  · exact ⟨fun h => (nomatch hw.symm.trans h), fun _ => e⟩
  · exact ⟨fun _ => ⟨_, e, rfl, hx⟩, fun h => (nomatch hw.symm.trans h)⟩

/-- Settles O11: by the two outcomes of an EOL, which leaves the shift that RLE8 gives it. -/
theorem rle8EolResult : Obligations.Rle8EolResult := by
  intro s
  rcases s.endOfLine_cases s.shift with ⟨ht, e⟩ | ⟨ht, e⟩
  · exact ⟨fun _ => e, fun h => absurd h (Nat.not_lt.2 ht)⟩
  · exact ⟨fun h => absurd ht (Nat.not_lt.2 h), fun _ => e⟩

/-- Settles O12: both personalities' EOB is `State.endOfBitmap`, which checks nothing. -/
theorem eobResult : Obligations.EobResult := fun _ => ⟨rfl, rfl⟩

/-- Settles O13: by the outcomes of a DELTA, whose byte step in RLE8 is `dx` itself. -/
theorem rle8DeltaResult : Obligations.Rle8DeltaResult := by
  intro s
  rcases s.delta_cases .rle8 fun _ => s.shift with ⟨hr, e⟩ | ⟨hr, hcases⟩
  · exact ⟨fun _ => e, fun h => (nomatch hr.symm.trans h)⟩
  · refine ⟨fun h => (nomatch hr.symm.trans h), fun _ dx dy hx hy => ?_⟩
    rcases hcases with ⟨hnone, -⟩ | ⟨dx', dy', hx', hy', hmove⟩
    · simp [hx, hy] at hnone
    · cases hx'.symm.trans hx
      cases hy'.symm.trans hy
      rcases hmove with ⟨ht, e⟩ | ⟨ht, e⟩
      · exact ⟨fun _ => e, fun h => absurd h (Nat.not_lt.2 ht)⟩
      · exact ⟨fun h => absurd ht (Nat.not_lt.2 h), fun _ => e⟩

/-- Settles O14: by the two checks, and after the copy by the padding's, which sees the state's old bounds. -/
theorem rle8AbsResult : Obligations.Rle8AbsResult := by
  intro n s
  rcases execRle8Abs_cases n s with ⟨hr, e⟩ | ⟨hr, hw, e⟩ | ⟨hr, hw, hcopy⟩
  · exact ⟨fun _ => e, fun h => (nomatch hr.symm.trans h), fun h => (nomatch hr.symm.trans h)⟩
  · exact ⟨fun h => (nomatch hr.symm.trans h), fun _ _ => e, fun _ h => (nomatch hw.symm.trans h)⟩
  · refine ⟨fun h => (nomatch hr.symm.trans h), fun _ h => (nomatch hw.symm.trans h), fun _ _ hloaded => ?_⟩
    rcases hcopy with ⟨-, i, hi, hnone⟩ | ⟨D', e, hx⟩
    · simpa [hnone] using hloaded i hi
    · rcases State.skipPadding_cases { s with d := s.d + n.toNat, D := D' } (s.p + 2 + n.toNat) (n.toNat % 2) with
        ⟨hpad, e'⟩ | ⟨hpad, e'⟩
      · exact ⟨_, e.trans e', hx, fun _ => rfl, fun h => (nomatch hpad.symm.trans h)⟩
      · exact ⟨_, e.trans e', hx, fun h => (nomatch hpad.symm.trans h), fun _ => rfl⟩

/-- Settles O15: no padding ends where the data end, so that the check of the data has passed for it too. -/
theorem evenRle8AbsNeverLacksPadding : Obligations.EvenRle8AbsNeverLacksPadding := by
  intro n s t hs heven hr hw h
  rcases execRle8Abs_cases n s with ⟨hr', -⟩ | ⟨-, hw', -⟩ | ⟨-, -, ⟨e, -⟩ | ⟨D', e, -⟩⟩
  · cases hr'.symm.trans hr
  · cases hw'.symm.trans hw
  · cases e.symm.trans h
  · have hpad : s.canRead (s.p + 2 + n.toNat) (n.toNat % 2) = true := State.canRead_mono hr (by omega)
    rcases State.skipPadding_cases { s with d := s.d + n.toNat, D := D' } (s.p + 2 + n.toNat) (n.toNat % 2) with
      ⟨-, e'⟩ | ⟨hlack, -⟩
    · cases (e.trans e').symm.trans h
      exact hs
    · cases hlack.symm.trans hpad

/-! ### What the commands without pixels leave unchanged (R74 to R76, R85 to R87) -/

theorem State.endOfLine_keeps {s t : State} {sh : Shift} (h : s.endOfLine sh = .next t) :
    t.D = s.D ∧ (sh = s.shift → t.shift = s.shift) := by
  rcases s.endOfLine_cases sh with ⟨-, e⟩ | ⟨-, e⟩ <;> cases e.symm.trans h
  · exact ⟨rfl, id⟩
  · exact ⟨rfl, fun _ => rfl⟩

theorem State.endOfBitmap_keeps {s t : State} (h : s.endOfBitmap = .next t) :
    t.D = s.D ∧ t.line = s.line ∧ t.shift = s.shift ∧ t.d = s.d := by
  cases h
  exact ⟨rfl, rfl, rfl, rfl⟩

theorem State.delta_keeps {s t : State} {m : Mode} {sh : Byte → Shift} (h : s.delta m sh = .next t) :
    t.D = s.D ∧ t.line = s.line ∧ ((∀ dx, sh dx = s.shift) → t.shift = s.shift) := by
  rcases s.delta_cases m sh with ⟨-, e⟩ | ⟨-, ⟨-, e⟩ | ⟨dx, _, -, -, ⟨-, e⟩ | ⟨-, e⟩⟩⟩ <;> cases e.symm.trans h
  · exact ⟨rfl, rfl, fun _ => rfl⟩
  · exact ⟨rfl, rfl, fun hsh => hsh dx⟩
  · exact ⟨rfl, rfl, fun _ => rfl⟩

/-- Settles O28: command by command, from what the operation behind each one keeps. -/
theorem noStoreFrame : Obligations.NoStoreFrame := by
  intro i s t hi h
  have hS : t.S = s.S := exec_input (by rintro n rfl; simp at hi) h
  have hsetup : SameSetup s t := exec_sameSetup h
  rcases hi with rfl | rfl | rfl | rfl | rfl | rfl
  · obtain ⟨hD, hshift⟩ := State.endOfLine_keeps h
    simp [hD, hS, hsetup, hshift]
  · obtain ⟨hD, hline, hshift, hd⟩ := State.endOfBitmap_keeps h
    simp [hD, hS, hsetup, hline, hshift, hd]
  · obtain ⟨hD, hline, hshift⟩ := State.delta_keeps h
    simp [hD, hS, hsetup, hline, hshift]
  · obtain ⟨hD, -⟩ := State.endOfLine_keeps h
    simp [hD, hS, hsetup]
  · obtain ⟨hD, hline, hshift, hd⟩ := State.endOfBitmap_keeps h
    simp [hD, hS, hsetup, hline, hshift, hd]
  · obtain ⟨hD, hline, -⟩ := State.delta_keeps h
    simp [hD, hS, hsetup, hline]

/-! ### Which bytes of `D` a command can change (R78, R89) -/

/-- The bytes of `D` in which `t` differs from `s` exist and are among the `n` from the output cursor of `s` on. -/
def State.StoresWithin (s : State) (n : Nat) (t : State) : Prop :=
  ∀ a, t.outByte a ≠ s.outByte a → s.d ≤ a ∧ a < s.d + n ∧ a < s.outLen

theorem State.StoresWithin.of_output {s t : State} {n : Nat} (h : t.D = s.D) : s.StoresWithin n t :=
  fun a hne => absurd (State.outByte_congr h a) hne

/-- Stores to an extent that the write check admits. -/
theorem State.StoresWithin.of_canWrite {s t : State} {n : Nat} (hw : s.canWrite s.d n = true)
    (h : ∀ a, ¬ (s.d ≤ a ∧ a < s.d + n) → t.outByte a = s.outByte a) : s.StoresWithin n t := by
  intro a hne
  have hin : s.d ≤ a ∧ a < s.d + n := by_contra fun hout => hne (h a hout)
  have hle := State.canWrite_le hw
  omega

theorem State.StoresWithin.congr {s t u : State} {n : Nat} (hu : s.StoresWithin n u) (h : t.D = u.D) :
    s.StoresWithin n t := by
  intro a hne
  exact hu a (State.outByte_congr h a ▸ hne)

/-- Stores to the nibbles of `k` pixels that the write check admits: a nibble outside the extent keeps its value, and so
does a byte both of whose nibbles are outside (R79). -/
theorem State.StoresWithin.of_outNibble {s t : State} {k : Nat}
    (hw : s.canWrite s.d (touched s.d s.shift k) = true)
    (h : ∀ M, ¬ (npos s.d s.shift ≤ M ∧ M < npos s.d s.shift + k) → t.outNibble M = s.outNibble M) :
    s.StoresWithin (touched s.d s.shift k) t := by
  refine .of_canWrite hw fun a ha => ?_
  have hout (M : Nat) (hM : M / 2 = a) : t.outNibble M = s.outNibble M := by
    refine h M fun ⟨hge, hlt⟩ => ha ?_
    have hcover := touched_covers s.d s.shift k (M - npos s.d s.shift) (by omega)
    have hdiv := npos_div_two s.d s.shift
    rw [Nat.add_sub_cancel' hge, hM] at hcover
    exact ⟨by omega, hcover⟩
  apply byte_ext_nib
  · rw [← State.outNibble_even, ← State.outNibble_even, hout _ (by omega)]
  · rw [← State.outNibble_odd, ← State.outNibble_odd, hout _ (by omega)]

theorem State.skipPadding_output {s t : State} {p pad : Nat} (h : s.skipPadding p pad = .next t) : t.D = s.D := by
  rcases s.skipPadding_cases p pad with ⟨-, e⟩ | ⟨-, e⟩ <;> cases e.symm.trans h <;> rfl

theorem execRle8Run_storesWithin {count v : Byte} {s t : State} (h : execRle8Run count v s = .next t) :
    s.StoresWithin count.toNat t := by
  rcases execRle8Run_cases count v s with ⟨-, e⟩ | ⟨hw, D', e, hx⟩ <;> cases e.symm.trans h
  · exact .of_output rfl
  · exact .of_canWrite hw fun a ha => (hx a).trans (if_neg ha)

theorem execRle8Abs_storesWithin {n : Byte} {s t : State} (h : execRle8Abs n s = .next t) :
    s.StoresWithin n.toNat t := by
  rcases execRle8Abs_cases n s with ⟨-, e⟩ | ⟨-, -, e⟩ | ⟨-, hw, ⟨e, -⟩ | ⟨D', e, hx⟩⟩ <;> have h' := e.symm.trans h
  · cases h'
    exact .of_output rfl
  · cases h'
    exact .of_output rfl
  · cases h'
  · have hcopy : s.StoresWithin n.toNat { s with D := D' } := .of_canWrite hw fun a ha => (hx a).trans (if_neg ha)
    have hD : t.D = D' := State.skipPadding_output h'
    exact hcopy.congr hD

theorem execRle4Run_storesWithin {count v : Byte} {s t : State} (h : execRle4Run count v s = .next t) :
    s.StoresWithin (touched s.d s.shift count.toNat) t := by
  unfold execRle4Run at h
  split at h
  · next hw =>
    obtain ⟨D', hf, -, hx⟩ := emitRun_spec s v count.toNat fun _ => State.pixel_inside hw
    obtain ⟨u, hu, hk⟩ := finish_next h
    cases hf.symm.trans hu
    cases hk
    exact .of_outNibble hw fun M hM => (hx M).trans (if_neg hM)
  · cases h
    exact .of_output rfl

/-- The pixel loop of an RLE4 ABS leaves every nibble outside its extent, under any `ABS4_ADVANCE` (R83). -/
theorem AbsRead.pixels_outNibble {s : State} {q k : Nat} {r : AbsRead} (hq : q + ceil2 k ≤ s.inLen.toNat)
    (hd : ∀ i, i < k → (npos s.d s.shift + i) / 2 < s.outLen) (h : AbsRead.pixels ⟨s, q, .high⟩ k = .ok r) {M : Nat}
    (hM : ¬ (npos s.d s.shift ≤ M ∧ M < npos s.d s.shift + k)) : r.state.outNibble M = s.outNibble M := by
  unfold ceil2 at hq
  by_cases hv : s.params.abs4 = .value
  · cases k with
    | zero => cases h; rfl
    | succ k =>
      obtain ⟨b, hb⟩ := AbsRead.pixels_loaded h
      obtain ⟨S', D', hf, -, -, -, hx⟩ := pixels_value s q (k + 1) b hv (by omega) hb hd
      cases hf.symm.trans h
      exact (hx M).trans (if_neg hM)
  · rcases pixels_moving s q k hv (fun i hi => by omega) hd with ⟨D', hf, -, -, hx⟩ | ⟨hf, -⟩ <;>
      cases hf.symm.trans h
    exact (hx M).trans (if_neg hM)

theorem execRle4Abs_storesWithin {n : Byte} {s t : State} (h : execRle4Abs n s = .next t) :
    s.StoresWithin (touched s.d s.shift n.toNat) t := by
  unfold execRle4Abs at h
  split at h
  · next hr =>
    split at h
    · next hw =>
      split at h
      · cases h
      · next r hok =>
        have hpixels : s.StoresWithin (touched s.d s.shift n.toNat) r.state := .of_outNibble hw fun M hM =>
          AbsRead.pixels_outNibble (State.canRead_le hr) (fun _ => State.pixel_inside hw) hok hM
        exact hpixels.congr (State.skipPadding_output h)
    · cases h
      exact .of_output rfl
  · cases h
    exact .of_output rfl

/-- A command changes bytes of `D` in its extent only. -/
theorem exec_storesWithin {i : Instr} {s t : State} (h : exec i s = .next t) : s.StoresWithin (s.storeExtent i) t := by
  cases i with
  | rle8Run count v => exact execRle8Run_storesWithin h
  | rle8Eol => exact .of_output (State.endOfLine_keeps h).1
  | rle8Eob => exact .of_output (State.endOfBitmap_keeps h).1
  | rle8Delta => exact .of_output (State.delta_keeps h).1
  | rle8Abs n => exact execRle8Abs_storesWithin h
  | rle4Run count v => exact execRle4Run_storesWithin h
  | rle4Eol => exact .of_output (State.endOfLine_keeps h).1
  | rle4Eob => exact .of_output (State.endOfBitmap_keeps h).1
  | rle4Delta => exact .of_output (State.delta_keeps h).1
  | rle4Abs n => exact execRle4Abs_storesWithin h

/-- Settles O41: a halt of the fetch leaves `D`, and the command at `p` stores within its extent. -/
theorem onlyRunAndAbsWriteOutput : Obligations.OnlyRunAndAbsWriteOutput := by
  intro s t a h hne
  obtain ⟨-, ⟨c, -, rfl⟩ | ⟨b0, b1, m, hf, hm, he⟩⟩ := step_cases h
  · exact absurd rfl hne
  · exact ⟨_, (State.headInstr_of_fetch hf hm).1, exec_storesWithin he a hne⟩

/-! ### What an RLE8 RUN or ABS leaves unchanged (R73, R77, R95) -/

theorem State.skipPadding_keeps {s t : State} {p pad : Nat} (h : s.skipPadding p pad = .next t) :
    t.line = s.line ∧ t.shift = s.shift := by
  rcases s.skipPadding_cases p pad with ⟨-, e⟩ | ⟨-, e⟩ <;> cases e.symm.trans h <;> exact ⟨rfl, rfl⟩

theorem execRle8Run_keeps {count v : Byte} {s t : State} (h : execRle8Run count v s = .next t) :
    t.line = s.line ∧ t.shift = s.shift := by
  rcases execRle8Run_cases count v s with ⟨-, e⟩ | ⟨-, D', e, -⟩ <;> cases e.symm.trans h <;> exact ⟨rfl, rfl⟩

theorem execRle8Abs_keeps {n : Byte} {s t : State} (h : execRle8Abs n s = .next t) :
    t.line = s.line ∧ t.shift = s.shift := by
  rcases execRle8Abs_cases n s with ⟨-, e⟩ | ⟨-, -, e⟩ | ⟨-, -, ⟨e, -⟩ | ⟨D', e, -⟩⟩ <;> have h' := e.symm.trans h
  · cases h'
    exact ⟨rfl, rfl⟩
  · cases h'
    exact ⟨rfl, rfl⟩
  · cases h'
  · have hkeeps := State.skipPadding_keeps h'
    exact hkeeps

/-- Settles O26: the stores stay in the extent, and neither command writes `S`, `line`, `shift` or a setup register. -/
theorem rle8StoreFrame : Obligations.Rle8StoreFrame := by
  intro i s t hi h
  have hD (a : Nat) (ha : ¬ (s.d ≤ a ∧ a < s.d + s.storeExtent i)) : t.outByte a = s.outByte a := by
    by_contra hne
    obtain ⟨hge, hlt, -⟩ := exec_storesWithin h a hne
    exact ha ⟨hge, hlt⟩
  have hS : t.S = s.S := exec_input (by rintro n rfl; simp at hi) h
  have hkeeps : t.line = s.line ∧ t.shift = s.shift := by
    rcases hi with ⟨count, v, rfl⟩ | ⟨n, rfl⟩
    · exact execRle8Run_keeps h
    · exact execRle8Abs_keeps h
  exact ⟨hD, hS, hkeeps.1, hkeeps.2, exec_sameSetup h⟩

end Sys2Proof.Machine

/-! The statements of 42_rle4.md: the extent of the pixels (R79), the nibble write (R80), the results of the five RLE4 commands
(R84 to R88), and what their stores leave unchanged (R89, R90). -/

namespace Sys2Proof.Machine

/-! ### The extent and the nibble write (R79, R80) -/

/-- Settles O18: the nibble address lies in byte `d`, so that the first pixel lies there and the last one `k - 1` nibbles on. -/
theorem touchedIsTheExtent : Obligations.TouchedIsTheExtent := by
  intro d k sh hk
  have hpos := npos_bounds d sh
  refine ⟨rfl, ?_, ?_, fun i hi => ⟨by omega, touched_covers d sh k i hi⟩, ?_⟩
  · simp only [touched, ceil2, npos]; omega
  · simp only [touched, ceil2, npos]; omega
  · simp only [touched, ceil2]; omega

theorem State.atNibble_succ_of_high (s : State) (d : Nat) :
    s.atNibble (npos d .high + 1) = { s with d := d, shift := .low } := by
  have hnext : npos d .high + 1 = npos d .low := rfl
  rw [State.atNibble, hnext, npos_div_two, ofParity_npos]

theorem State.atNibble_succ_of_low (s : State) (d : Nat) :
    s.atNibble (npos d .low + 1) = { s with d := d + 1, shift := .high } := by
  have hnext : npos d .low + 1 = npos (d + 1) .high := rfl
  rw [State.atNibble, hnext, npos_div_two, ofParity_npos]

/-- Settles O19: the nibble address steps by one, which is the other nibble of the byte or the first of the next byte. -/
theorem emitWritesOneNibble : Obligations.EmitWritesOneNibble := by
  intro s c hd
  obtain ⟨D', he, -, hx⟩ := emit_spec s c hd
  refine ⟨_, he, hx, fun hs => ?_, fun hs => ?_⟩
  · rw [hs, State.atNibble_succ_of_high]
  · rw [hs, State.atNibble_succ_of_low]

/-! ### What each RLE4 command answers (R84 to R88) -/

/-- An RLE4 RUN halts with nothing written, or gives its nibbles those of `v`, steps the position and retires (R84). -/
theorem execRle4Run_cases (count v : Byte) (s : State) :
    (s.canWrite s.d (touched s.d s.shift count.toNat) = false ∧ execRle4Run count v s = .next (s.halt .oobOut)) ∨
    (s.canWrite s.d (touched s.d s.shift count.toNat) = true ∧ ∃ D',
      execRle4Run count v s =
        .next ((({ s with D := D' } : State).atNibble (npos s.d s.shift + count.toNat)).retire 2) ∧
      ∀ M, ({ s with D := D' } : State).outNibble M =
        if npos s.d s.shift ≤ M ∧ M < npos s.d s.shift + count.toNat then nib v (Shift.ofParity M)
        else s.outNibble M) := by
  unfold execRle4Run
  cases hw : s.canWrite s.d (touched s.d s.shift count.toNat) with
  | false => exact .inl ⟨rfl, rfl⟩
  | true =>
    obtain ⟨D', hf, -, hx⟩ := emitRun_spec s v count.toNat fun _ => State.pixel_inside hw
    exact .inr ⟨rfl, D', by rw [hf]; rfl, hx⟩

/-- A byte whose two nibbles are those of `v` is `v`. -/
theorem State.outByte_eq_of_outNibble {s : State} {a : Nat} {v : Byte}
    (h : ∀ M, M / 2 = a → s.outNibble M = nib v (Shift.ofParity M)) : s.outByte a = v := by
  apply byte_ext_nib
  · rw [← State.outNibble_even, h _ (by omega)]
    simp [Shift.ofParity]
  · rw [← State.outNibble_odd, h _ (by omega)]
    simp [Shift.ofParity]

/-- Settles O20: by the outcome of the write check; a byte that the run covers completely has both nibbles of `v`. -/
theorem rle4RunResult : Obligations.Rle4RunResult := by
  intro count v s
  rcases execRle4Run_cases count v s with ⟨hw, e⟩ | ⟨hw, D', e, hx⟩
  · exact ⟨fun h => (nomatch hw.symm.trans h), fun _ => e⟩
  · refine ⟨fun _ => ⟨_, e, rfl, npos_ofParity _, hx, fun a hge hle => ?_⟩, fun h => (nomatch hw.symm.trans h)⟩
    exact State.outByte_eq_of_outNibble (s := { s with D := D' }) fun M hM => (hx M).trans (if_pos (by omega))

/-- Settles O21: by the two outcomes of an EOL, which sets the shift to 4. -/
theorem rle4EolResult : Obligations.Rle4EolResult := by
  intro s
  rcases s.endOfLine_cases .high with ⟨ht, e⟩ | ⟨ht, e⟩
  · exact ⟨fun _ => e, fun h => absurd h (Nat.not_lt.2 ht)⟩
  · exact ⟨fun h => absurd ht (Nat.not_lt.2 h), fun _ => e⟩

/-- What a DELTA answers when its operands are loaded: a halt on either side, or the move (R76, R87). -/
theorem State.delta_of_operands {s : State} {dx dy : Byte} (m : Mode) (sh : Byte → Shift)
    (hx : s.inByte (s.p + 2) = some dx) (hy : s.inByte (s.p + 3) = some dy) :
    (s.canRead (s.p + 2) 2 = false ∧ s.delta m sh = .next (s.halt .oobIn)) ∨
    (s.canRead (s.p + 2) 2 = true ∧ s.deltaTarget m dx dy ≤ s.outLen ∧
      s.delta m sh = .next { s with p := s.p + 4, d := s.deltaTarget m dx dy, shift := sh dx }) ∨
    (s.canRead (s.p + 2) 2 = true ∧ s.outLen < s.deltaTarget m dx dy ∧ s.delta m sh = .next (s.halt .oobOut)) := by
  rcases s.delta_cases m sh with hin | ⟨hr, ⟨hnone, -⟩ | ⟨dx', dy', hx', hy', hmove⟩⟩
  · exact .inl hin
  · simp [hx, hy] at hnone
  · cases hx'.symm.trans hx
    cases hy'.symm.trans hy
    exact .inr (hmove.imp (fun h => ⟨hr, h⟩) fun h => ⟨hr, h⟩)

/-- Settles O22: by the outcomes of a DELTA, whose byte step in RLE4 is `dx / 2` and whose shift is the parity of `dx`. -/
theorem rle4DeltaResult : Obligations.Rle4DeltaResult := by
  intro s
  refine ⟨fun hr => if_neg (Bool.eq_false_iff.1 hr), fun hr dx dy hx hy => ?_⟩
  rcases State.delta_of_operands .rle4 (fun dx => Shift.ofParity dx.toNat) hx hy with
    ⟨hr', -⟩ | ⟨-, ht, e⟩ | ⟨-, ht, e⟩
  · cases hr'.symm.trans hr
  · exact ⟨fun _ => e, fun h => absurd h (Nat.not_lt.2 ht)⟩
  · exact ⟨fun h => absurd ht (Nat.not_lt.2 h), fun _ => e⟩

/-- The nibble address that the byte offset `d + N / 2` and the parity of `N` make up (R25). -/
theorem npos_add_half (d N : Nat) : npos (d + N / 2) (Shift.ofParity N) = 2 * d + N := by
  have h := npos_ofParity N
  cases hs : Shift.ofParity N <;> simp only [hs, npos] at h ⊢ <;> omega

/-- Settles O23: a DELTA that does not halt has retired, and `dx / 2` bytes with the parity of `dx` are `dx` nibbles. -/
theorem rle4DeltaNibbleAddress : Obligations.Rle4DeltaNibbleAddress := by
  intro s t dx dy hs hx hy h ht
  rcases State.delta_of_operands .rle4 (fun dx => Shift.ofParity dx.toNat) hx hy with
    ⟨-, e⟩ | ⟨-, -, e⟩ | ⟨-, -, e⟩ <;> cases e.symm.trans h
  · cases ht
  · have hmove : s.deltaTarget .rle4 dx dy = s.d + dy.toNat * s.rowBytes + dx.toNat / 2 := Nat.add_right_comm ..
    have hpos : npos (s.deltaTarget .rle4 dx dy) (Shift.ofParity dx.toNat) =
        2 * s.d + dx.toNat + 2 * dy.toNat * s.rowBytes := by
      rw [hmove, npos_add_half]
      ring
    refine ⟨hpos, fun hhigh => ?_, fun hlow => ?_⟩
    · rw [hhigh]
      exact hpos
    · rw [hpos, hlow]
      simp only [npos]
      omega
  · cases ht

/-! ### The RLE4 ABS (R83, R88, R90) -/

/-- Where the read offset of an RLE4 ABS stands after `n` pixels (R83). -/
def State.abs4ReadEnd (s : State) (n : Nat) : Nat :=
  if s.params.abs4 = .value then s.p + 2 else s.p + 2 + n / 2

/-- Where the data of an RLE4 ABS end, and so its padding begins (R88). -/
def State.abs4DataEnd (s : State) (n : Nat) : Nat := abs4End s.params.abs4 s.p (s.abs4ReadEnd n) n

/-- R88: the end of the data and the number of padding bytes under each `ABS4_ADVANCE`. -/
theorem State.abs4DataEnd_and_abs4Pad (s : State) (n : Nat) :
    (s.params.abs4 = .pointer → s.abs4DataEnd n = s.p + 2 + n / 2 ∧ abs4Pad s.params.abs4 n = n % 2) ∧
    (s.params.abs4 = .value → s.abs4DataEnd n = s.p + 2 ∧ abs4Pad s.params.abs4 n = n % 2) ∧
    (s.params.abs4 = .aligned → s.abs4DataEnd n = s.p + 2 + ceil2 n ∧ abs4Pad s.params.abs4 n = ceil2 n % 2) := by
  refine ⟨fun h => ?_, fun h => ?_, fun h => ?_⟩ <;> simp [State.abs4DataEnd, State.abs4ReadEnd, abs4End, abs4Pad, h]

/-- Under `pointer` and `value` the padding is among the `ceil2 n` bytes that the data check admits (R90). -/
theorem State.abs4Pad_inside {s : State} (h : s.params.abs4 ≠ .aligned) (n : Nat) :
    s.abs4DataEnd n + abs4Pad s.params.abs4 n ≤ s.p + 2 + ceil2 n := by
  obtain ⟨hpointer, hvalue, -⟩ := s.abs4DataEnd_and_abs4Pad n
  unfold ceil2
  cases hadv : s.params.abs4 with
  | pointer => obtain ⟨hend, hpad⟩ := hpointer hadv; rw [← hadv]; omega
  | value => obtain ⟨hend, hpad⟩ := hvalue hadv; rw [← hadv]; omega
  | aligned => contradiction

/-- What the `n` pixels of an RLE4 ABS store, from the position of `s` on: in `D` those of R83's table, and in `S`, under
`value` only, the first data byte, incremented `n / 2` times. -/
structure State.AbsStores (s : State) (n : Nat) (S' D' : Memory) : Prop where
  input_eq : s.params.abs4 ≠ .value → S' = s.S
  inByte_value : s.params.abs4 = .value → ∀ a, ({ s with S := S' } : State).inByte a =
    if a = s.p + 2 then (s.inByte a).map (· + BitVec.ofNat 8 (n / 2)) else s.inByte a
  outNibble_eq : ∀ M, ({ s with D := D' } : State).outNibble M =
    if npos s.d s.shift ≤ M ∧ M < npos s.d s.shift + n then s.absPixel (M - npos s.d s.shift) else s.outNibble M

theorem State.absPixel_of_value {s : State} (hv : s.params.abs4 = .value) (i : Nat) :
    s.absPixel i = nib ((s.inByte (s.p + 2)).getD 0 + BitVec.ofNat 8 (i / 2)) (Shift.ofParity i) := by
  simp only [State.absPixel, hv, Shift.ofParity]

theorem State.absPixel_of_ne_value {s : State} (hv : s.params.abs4 ≠ .value) (i : Nat) :
    s.absPixel i = nib ((s.inByte (s.p + 2 + i / 2)).getD 0) (Shift.ofParity i) := by
  unfold State.absPixel Shift.ofParity
  split
  · contradiction
  · rfl

theorem State.AbsStores.zero (s : State) : s.AbsStores 0 s.S s.D where
  input_eq := fun _ => rfl
  inByte_value := fun _ a => by simp
  outNibble_eq := fun M => by rw [if_neg (by omega)]

theorem AbsRead.pixels_zero (s : State) (q : Nat) :
    AbsRead.pixels ⟨s, q, .high⟩ 0 = .ok ⟨s.atNibble (npos s.d s.shift), q, .high⟩ := by
  rw [State.atNibble_self, AbsRead.pixels]

/-- A pixel loop whose first byte is unloaded stops in a fault. -/
theorem AbsRead.pixels_of_unloaded {r : AbsRead} (h : r.state.inByte r.q = none) (k : Nat) :
    ∃ f, r.pixels (k + 1) = .error f := by
  cases hf : r.pixels (k + 1) with
  | ok r' =>
    obtain ⟨b, hb⟩ := AbsRead.pixels_loaded hf
    cases h.symm.trans hb
  | error f => exact ⟨f, rfl⟩

/-- The pixel loop of an RLE4 ABS whose extents lie inside `S` and `D` stores what R83 says, under any `ABS4_ADVANCE`, or finds
a data byte unloaded. -/
theorem AbsRead.pixels_stores {s : State} {n : Nat} (hq : s.p + 2 + ceil2 n ≤ s.inLen.toNat)
    (hd : ∀ i, i < n → (npos s.d s.shift + i) / 2 < s.outLen) :
    (∃ S' D', AbsRead.pixels ⟨s, s.p + 2, .high⟩ n = .ok
        ⟨({ s with S := S', D := D' } : State).atNibble (npos s.d s.shift + n), s.abs4ReadEnd n, Shift.ofParity n⟩ ∧
      s.AbsStores n S' D') ∨
    ((∃ f, AbsRead.pixels ⟨s, s.p + 2, .high⟩ n = .error f) ∧ ∃ i, i < ceil2 n ∧ s.inByte (s.p + 2 + i) = none) := by
  unfold ceil2 at hq ⊢
  by_cases hv : s.params.abs4 = .value
  · rw [State.abs4ReadEnd, if_pos hv]
    cases n with
    | zero => exact .inl ⟨s.S, s.D, AbsRead.pixels_zero s (s.p + 2), .zero s⟩
    | succ k =>
      cases hb : s.inByte (s.p + 2) with
      | none => exact .inr ⟨AbsRead.pixels_of_unloaded hb k, 0, by omega, hb⟩
      | some b =>
        obtain ⟨S', D', hf, -, hbyte, -, hx⟩ := pixels_value s (s.p + 2) (k + 1) b hv (by omega) hb hd
        refine .inl ⟨S', D', hf, absurd hv, fun _ a => ?_, fun M => ?_⟩
        · rw [hbyte]
          split
          · next ha => rw [ha, hb, Option.map_some]
          · rfl
        · rw [hx, State.absPixel_of_value hv, hb, Option.getD_some]
  · rw [State.abs4ReadEnd, if_neg hv]
    rcases pixels_moving s (s.p + 2) n hv (fun i hi => by omega) hd with ⟨D', hf, -, -, hx⟩ | ⟨hf, i, hi, hnone⟩
    · refine .inl ⟨s.S, D', hf, fun _ => rfl, fun h => absurd h hv, fun M => ?_⟩
      rw [hx, State.absPixel_of_ne_value hv]
    · exact .inr ⟨⟨_, hf⟩, i / 2, by omega, hnone⟩

/-- An RLE4 ABS halts with nothing copied, finds a data byte unloaded, or stores its pixels, steps the position and goes on to
the padding (R88). -/
theorem execRle4Abs_cases (n : Byte) (s : State) :
    (s.canRead (s.p + 2) (ceil2 n.toNat) = false ∧ execRle4Abs n s = .next (s.halt .oobIn)) ∨
    (s.canRead (s.p + 2) (ceil2 n.toNat) = true ∧ s.canWrite s.d (touched s.d s.shift n.toNat) = false ∧
      execRle4Abs n s = .next (s.halt .oobOut)) ∨
    (s.canRead (s.p + 2) (ceil2 n.toNat) = true ∧ s.canWrite s.d (touched s.d s.shift n.toNat) = true ∧
      (((∃ f, execRle4Abs n s = .fault f) ∧ ∃ i, i < ceil2 n.toNat ∧ s.inByte (s.p + 2 + i) = none) ∨
      ∃ S' D', execRle4Abs n s =
          (({ s with S := S', D := D' } : State).atNibble (npos s.d s.shift + n.toNat)).skipPadding
            (s.abs4DataEnd n.toNat) (abs4Pad s.params.abs4 n.toNat) ∧
        s.AbsStores n.toNat S' D')) := by
  unfold execRle4Abs
  cases hr : s.canRead (s.p + 2) (ceil2 n.toNat) with
  | false => exact .inl ⟨rfl, rfl⟩
  | true =>
    cases hw : s.canWrite s.d (touched s.d s.shift n.toNat) with
    | false => exact .inr (.inl ⟨rfl, rfl, rfl⟩)
    | true =>
      refine .inr (.inr ⟨rfl, rfl, ?_⟩)
      rcases AbsRead.pixels_stores (State.canRead_le hr) (fun _ => State.pixel_inside hw) with
        ⟨S', D', hf, hstores⟩ | ⟨⟨f, hf⟩, hnone⟩
      · exact .inr ⟨S', D', by rw [hf]; rfl, hstores⟩
      · exact .inl ⟨⟨f, by rw [hf]; rfl⟩, hnone⟩

/-- Settles O24: by the two checks, and after the pixels by the padding's, which sees the state's old bounds. -/
theorem rle4AbsResult : Obligations.Rle4AbsResult := by
  intro n s
  rcases execRle4Abs_cases n s with ⟨hr, e⟩ | ⟨hr, hw, e⟩ | ⟨hr, hw, hpixels⟩
  · exact ⟨fun _ => e, fun h => (nomatch hr.symm.trans h), fun h => (nomatch hr.symm.trans h)⟩
  · exact ⟨fun h => (nomatch hr.symm.trans h), fun _ _ => e, fun _ h => (nomatch hw.symm.trans h)⟩
  · refine ⟨fun h => (nomatch hr.symm.trans h), fun _ h => (nomatch hw.symm.trans h), fun _ _ hloaded => ?_⟩
    rcases hpixels with ⟨-, i, hi, hnone⟩ | ⟨S', D', e, hinput, hbyte, hx⟩
    · simpa [hnone] using hloaded i hi
    · obtain ⟨hpointer, hvalue, haligned⟩ := s.abs4DataEnd_and_abs4Pad n.toNat
      have hpos := npos_ofParity (npos s.d s.shift + n.toNat)
      rcases State.skipPadding_cases (({ s with S := S', D := D' } : State).atNibble (npos s.d s.shift + n.toNat))
        (s.abs4DataEnd n.toNat) (abs4Pad s.params.abs4 n.toNat) with ⟨hpad, e'⟩ | ⟨hpad, e'⟩
      · exact ⟨_, _, _, e.trans e', hpointer, hvalue, haligned, hpos, hx, hinput, hbyte, fun _ => rfl,
          fun h => (nomatch hpad.symm.trans h)⟩
      · exact ⟨_, _, _, e.trans e', hpointer, hvalue, haligned, hpos, hx, hinput, hbyte,
          fun h => (nomatch hpad.symm.trans h), fun _ => rfl⟩

/-- Settles O25: the padding ends where the `ceil2 n` checked bytes end under `pointer`, and earlier under `value`. -/
theorem rle4PaddingNeverMissing : Obligations.Rle4PaddingNeverMissing := by
  intro n s t hadv hs hr hw h
  rcases execRle4Abs_cases n s with ⟨hr', -⟩ | ⟨-, hw', -⟩ | ⟨-, -, ⟨⟨f, e⟩, -⟩ | ⟨S', D', e, -⟩⟩
  · cases hr'.symm.trans hr
  · cases hw'.symm.trans hw
  · cases e.symm.trans h
  · have hpad : s.canRead (s.abs4DataEnd n.toNat) (abs4Pad s.params.abs4 n.toNat) = true :=
      State.canRead_mono hr (State.abs4Pad_inside hadv n.toNat)
    rcases State.skipPadding_cases (({ s with S := S', D := D' } : State).atNibble (npos s.d s.shift + n.toNat))
      (s.abs4DataEnd n.toNat) (abs4Pad s.params.abs4 n.toNat) with ⟨-, e'⟩ | ⟨hlack, -⟩
    · cases (e.trans e').symm.trans h
      exact ⟨hs, rfl⟩
    · cases hlack.symm.trans hpad

/-! ### What an RLE4 RUN or ABS leaves unchanged (R84, R88, R95) -/

theorem State.StoresWithin.outByte_eq {s t : State} {n a : Nat} (h : s.StoresWithin n t)
    (ha : ¬ (s.d ≤ a ∧ a < s.d + n)) : t.outByte a = s.outByte a := by
  by_contra hne
  obtain ⟨hge, hlt, -⟩ := h a hne
  exact ha ⟨hge, hlt⟩

theorem execRle4Run_keeps {count v : Byte} {s t : State} (h : execRle4Run count v s = .next t) :
    t.line = s.line ∧
      ∀ M, ¬ (npos s.d s.shift ≤ M ∧ M < npos s.d s.shift + count.toNat) → t.outNibble M = s.outNibble M := by
  rcases execRle4Run_cases count v s with ⟨-, e⟩ | ⟨-, D', e, hx⟩ <;> cases e.symm.trans h
  · exact ⟨rfl, fun _ _ => rfl⟩
  · exact ⟨rfl, fun M hM => (hx M).trans (if_neg hM)⟩

theorem execRle4Abs_keeps {n : Byte} {s t : State} (h : execRle4Abs n s = .next t) :
    t.line = s.line ∧
      ∀ M, ¬ (npos s.d s.shift ≤ M ∧ M < npos s.d s.shift + n.toNat) → t.outNibble M = s.outNibble M := by
  rcases execRle4Abs_cases n s with ⟨-, e⟩ | ⟨-, -, e⟩ | ⟨-, -, ⟨⟨f, e⟩, -⟩ | ⟨S', D', e, hstores⟩⟩ <;>
    have h' := e.symm.trans h
  · cases h'
    exact ⟨rfl, fun _ _ => rfl⟩
  · cases h'
    exact ⟨rfl, fun _ _ => rfl⟩
  · cases h'
  · have hline := (State.skipPadding_keeps h').1
    refine ⟨hline, fun M hM => (State.outNibble_congr (State.skipPadding_output h') M).trans ?_⟩
    exact (hstores.outNibble_eq M).trans (if_neg hM)

/-- Settles O27: the stores stay in the extent, to the nibble, and neither command writes `line` or a setup register; of `S`
an ABS writes the one byte, under `value` only. -/
theorem rle4StoreFrame : Obligations.Rle4StoreFrame := by
  intro i s t k hi h
  have hD (a : Nat) := (exec_storesWithin h).outByte_eq (a := a)
  have hsetup := exec_sameSetup h
  rcases hi with ⟨count, v, rfl, rfl⟩ | ⟨n, rfl, rfl⟩
  · obtain ⟨hline, hnibble⟩ := execRle4Run_keeps h
    have hS := execRle4Run_input h
    exact ⟨hnibble, hD, hline, hsetup, fun _ => hS, fun a _ => State.inByte_congr hS a⟩
  · obtain ⟨hline, hnibble⟩ := execRle4Abs_keeps h
    obtain ⟨hS, hbyte⟩ := execRle4Abs_input h
    exact ⟨hnibble, hD, hline, hsetup, fun hv => hS (hv.resolve_left nofun), hbyte⟩

end Sys2Proof.Machine

/-! The statements of 60_exceptions.md: the accesses that no step makes (R98), what a halting step leaves and which cause it
names (R93 to R95), and how long a halt stays (R97). -/

namespace Sys2Proof.Machine

/-! ### The one fault that a step can end in (R98)

Every check of a command bounds the accesses behind it, so that the only access that can fail is the read of a cell inside the
stream that the host did not load. -/

theorem State.endOfLine_ne_fault (s : State) (sh : Shift) (f : Fault) : s.endOfLine sh ≠ .fault f := by
  rcases s.endOfLine_cases sh with ⟨-, e⟩ | ⟨-, e⟩ <;> rw [e] <;> nofun

theorem State.skipPadding_ne_fault (s : State) (p pad : Nat) (f : Fault) : s.skipPadding p pad ≠ .fault f := by
  rcases s.skipPadding_cases p pad with ⟨-, e⟩ | ⟨-, e⟩ <;> rw [e] <;> nofun

theorem execRle8Run_ne_fault (count v : Byte) (s : State) (f : Fault) : execRle8Run count v s ≠ .fault f := by
  rcases execRle8Run_cases count v s with ⟨-, e⟩ | ⟨-, D', e, -⟩ <;> rw [e] <;> nofun

theorem execRle4Run_ne_fault (count v : Byte) (s : State) (f : Fault) : execRle4Run count v s ≠ .fault f := by
  rcases execRle4Run_cases count v s with ⟨-, e⟩ | ⟨-, D', e, -⟩ <;> rw [e] <;> nofun

/-- A DELTA reads its operands inside the stream, and so fails at an unloaded one only (R76, R87). -/
theorem State.delta_fault_eq {s : State} {m : Mode} {sh : Byte → Shift} {f : Fault} (h : s.delta m sh = .fault f) :
    f = .inputUnloaded := by
  rcases s.delta_cases m sh with ⟨-, e⟩ | ⟨-, ⟨-, e⟩ | ⟨_, _, -, -, ⟨-, e⟩ | ⟨-, e⟩⟩⟩ <;> cases e.symm.trans h
  rfl

/-- An RLE8 ABS copies inside both memories, and so fails at an unloaded data byte only (R77). -/
theorem execRle8Abs_fault_eq {n : Byte} {s : State} {f : Fault} (h : execRle8Abs n s = .fault f) :
    f = .inputUnloaded := by
  rcases execRle8Abs_cases n s with ⟨-, e⟩ | ⟨-, -, e⟩ | ⟨-, -, ⟨e, -⟩ | ⟨D', e, -⟩⟩ <;> have h' := e.symm.trans h
  · cases h'
  · cases h'
  · cases h'; rfl
  · exact absurd h' (State.skipPadding_ne_fault _ _ _ f)

/-- A pixel loop that stands at an unloaded cell of the stream stops at its first pixel. -/
theorem AbsRead.pixels_error_of_unloaded {r : AbsRead} (hq : r.q < r.state.inLen.toNat)
    (h : r.state.inByte r.q = none) (k : Nat) : r.pixels (k + 1) = .error .inputUnloaded := by
  induction k with
  | zero => simp only [AbsRead.pixels, AbsRead.pixel, State.readInput, hq, if_true, h]
  | succ k ih => rw [AbsRead.pixels, ih]

/-- The pixel loop of an RLE4 ABS whose extents lie inside `S` and `D` stops at an unloaded cell only, under any
`ABS4_ADVANCE`. -/
theorem AbsRead.pixels_error_eq {s : State} {q k : Nat} {f : Fault} (hq : q + ceil2 k ≤ s.inLen.toNat)
    (hd : ∀ i, i < k → (npos s.d s.shift + i) / 2 < s.outLen) (h : AbsRead.pixels ⟨s, q, .high⟩ k = .error f) :
    f = .inputUnloaded := by
  unfold ceil2 at hq
  by_cases hv : s.params.abs4 = .value
  · cases k with
    | zero => cases h
    | succ k =>
      have hlt : q < s.inLen.toNat := by omega
      cases hb : s.inByte q with
      | none => cases (AbsRead.pixels_error_of_unloaded (r := ⟨s, q, .high⟩) hlt hb k).symm.trans h; rfl
      | some b =>
        obtain ⟨S', D', hf, -⟩ := pixels_value s q (k + 1) b hv hlt hb hd
        cases hf.symm.trans h
  · rcases pixels_moving s q k hv (fun i hi => by omega) hd with ⟨D', hf, -⟩ | ⟨hf, -⟩ <;> cases hf.symm.trans h
    rfl

theorem execRle4Abs_fault_eq {n : Byte} {s : State} {f : Fault} (h : execRle4Abs n s = .fault f) :
    f = .inputUnloaded := by
  unfold execRle4Abs at h
  split at h
  · next hr =>
    split at h
    · next hw =>
      split at h
      · next g hg =>
        cases h
        exact AbsRead.pixels_error_eq (State.canRead_le hr) (fun _ => State.pixel_inside hw) hg
      · exact absurd h (State.skipPadding_ne_fault _ _ _ f)
    · cases h
  · cases h

/-- A command that ends in a fault has found an unloaded cell. -/
theorem exec_fault_eq {i : Instr} {s : State} {f : Fault} (h : exec i s = .fault f) : f = .inputUnloaded := by
  cases i with
  | rle8Run count v => exact absurd h (execRle8Run_ne_fault count v s f)
  | rle8Eol => exact absurd h (s.endOfLine_ne_fault _ f)
  | rle8Eob => cases h
  | rle8Delta => exact State.delta_fault_eq h
  | rle8Abs n => exact execRle8Abs_fault_eq h
  | rle4Run count v => exact absurd h (execRle4Run_ne_fault count v s f)
  | rle4Eol => exact absurd h (s.endOfLine_ne_fault _ f)
  | rle4Eob => cases h
  | rle4Delta => exact State.delta_fault_eq h
  | rle4Abs n => exact execRle4Abs_fault_eq h

theorem State.fetch_stopped_eq {s : State} {f : Fault} (h : s.fetch = .stopped f) : f = .inputUnloaded := by
  rcases s.fetch_cases with ⟨e, -⟩ | ⟨e, -⟩ | ⟨e, -⟩ | ⟨_, _, e, -⟩ <;> cases e.symm.trans h
  rfl

/-- A step that ends in a fault does so in the fetch or in the command. -/
theorem step_fault_cases {s : State} {f : Fault} (h : step s = .fault f) :
    s.fetch = .stopped f ∨ ∃ i, exec i s = .fault f := by
  unfold step at h
  split at h
  · cases h
  · cases h
  · split at h
    · cases h
    · next hf => cases h; exact .inl hf
    · split at h
      · cases h
      · exact .inr ⟨_, h⟩

/-- R98: no step ends in the fault of an access outside `S` or `D`, whatever the state. -/
theorem step_fault_eq {s : State} {f : Fault} (h : step s = .fault f) : f = .inputUnloaded := by
  rcases step_fault_cases h with hf | ⟨i, he⟩
  · exact State.fetch_stopped_eq hf
  · exact exec_fault_eq he

/-- Settles O34: the one fault is that of an unloaded cell, and neither the fetch nor a command of a loaded stream meets it. -/
theorem noAccessOutsideTheBuffers : Obligations.NoAccessOutsideTheBuffers := by
  refine fun s => ⟨fun h => (nomatch step_fault_eq h), fun h => (nomatch step_fault_eq h), fun hl f h => ?_⟩
  rcases step_fault_cases h with hf | ⟨i, he⟩
  · exact hl.fetch_ne_stopped f hf
  · obtain ⟨t, ht, -⟩ := hl.exec i
    cases ht.symm.trans he

/-! ### The halts (R93 to R95) -/

/-- What a command `i` that halts leaves: an EOB retires; a check that fails before any pixel leaves everything but `STATUS`
and `CAUSE`; and an ABS that lacks its padding keeps its copy, in RLE4 under `aligned` only (R77, R88, R95). -/
inductive State.Halted (s : State) : Instr → State → Prop where
  | endOfBitmap {i : Instr} (hi : i = .rle8Eob ∨ i = .rle4Eob) : s.Halted i ((s.retire 2).halt .eob)
  | check {i : Instr} {c : Cause} (hc : c = .oobIn ∨ c = .oobOut) : s.Halted i (s.halt c)
  | rle8Padding {n : Byte} {D' : Memory} (hpad : s.canRead (s.p + 2 + n.toNat) (n.toNat % 2) = false)
      (hD : ∀ a, ({ s with D := D' } : State).outByte a =
        if s.d ≤ a ∧ a < s.d + n.toNat then (s.inByte (s.p + 2 + (a - s.d))).getD 0 else s.outByte a) :
      s.Halted (.rle8Abs n)
        (({ s with p := s.p + 2 + n.toNat, d := s.d + n.toNat, D := D' } : State).halt .oobIn)
  | rle4Padding {n : Byte} {D' : Memory} (hadv : s.params.abs4 = .aligned)
      (hpad : s.canRead (s.p + 2 + ceil2 n.toNat) (ceil2 n.toNat % 2) = false)
      (hD : ∀ M, ({ s with D := D' } : State).outNibble M =
        if npos s.d s.shift ≤ M ∧ M < npos s.d s.shift + n.toNat then s.absPixel (M - npos s.d s.shift)
        else s.outNibble M) :
      s.Halted (.rle4Abs n)
        ((({ s with p := s.p + 2 + ceil2 n.toNat, D := D' } : State).atNibble (npos s.d s.shift + n.toNat)).halt .oobIn)

/-- An ABS that halts at its padding lacks it, and keeps the copy with `p` at the missing byte (R77, R88). -/
theorem State.skipPadding_halted {s t : State} {p pad : Nat} (h : s.skipPadding p pad = .next t)
    (hs : s.status = .running) (ht : t.status = .done) :
    s.canRead p pad = false ∧ t = ({ s with p := p } : State).halt .oobIn := by
  rcases s.skipPadding_cases p pad with ⟨-, e⟩ | ⟨hpad, e⟩ <;> cases e.symm.trans h
  · cases hs.symm.trans ht
  · exact ⟨hpad, rfl⟩

section

variable {s t : State} (hs : s.status = .running) (ht : t.status = .done)
include hs ht

theorem State.endOfLine_halted {i : Instr} {sh : Shift} (h : s.endOfLine sh = .next t) : s.Halted i t := by
  rcases s.endOfLine_cases sh with ⟨-, e⟩ | ⟨-, e⟩ <;> cases e.symm.trans h
  · cases hs.symm.trans ht
  · exact .check (.inr rfl)

theorem State.delta_halted {i : Instr} {m : Mode} {sh : Byte → Shift} (h : s.delta m sh = .next t) :
    s.Halted i t := by
  rcases s.delta_cases m sh with ⟨-, e⟩ | ⟨-, ⟨-, e⟩ | ⟨_, _, -, -, ⟨-, e⟩ | ⟨-, e⟩⟩⟩ <;> cases e.symm.trans h
  · exact .check (.inl rfl)
  · cases hs.symm.trans ht
  · exact .check (.inr rfl)

theorem execRle8Run_halted {i : Instr} {count v : Byte} (h : execRle8Run count v s = .next t) : s.Halted i t := by
  rcases execRle8Run_cases count v s with ⟨-, e⟩ | ⟨-, D', e, -⟩ <;> cases e.symm.trans h
  · exact .check (.inr rfl)
  · cases hs.symm.trans ht

theorem execRle4Run_halted {i : Instr} {count v : Byte} (h : execRle4Run count v s = .next t) : s.Halted i t := by
  rcases execRle4Run_cases count v s with ⟨-, e⟩ | ⟨-, D', e, -⟩ <;> cases e.symm.trans h
  · exact .check (.inr rfl)
  · cases hs.symm.trans ht

theorem execRle8Abs_halted {n : Byte} (h : execRle8Abs n s = .next t) : s.Halted (.rle8Abs n) t := by
  rcases execRle8Abs_cases n s with ⟨-, e⟩ | ⟨-, -, e⟩ | ⟨-, -, ⟨e, -⟩ | ⟨D', e, hD⟩⟩ <;> have h' := e.symm.trans h
  · cases h'
    exact .check (.inl rfl)
  · cases h'
    exact .check (.inr rfl)
  · cases h'
  · obtain ⟨hpad, rfl⟩ := State.skipPadding_halted h' hs ht
    exact .rle8Padding hpad hD

theorem execRle4Abs_halted {n : Byte} (h : execRle4Abs n s = .next t) : s.Halted (.rle4Abs n) t := by
  rcases execRle4Abs_cases n s with ⟨-, e⟩ | ⟨-, -, e⟩ | ⟨hr, -, ⟨⟨f, e⟩, -⟩ | ⟨S', D', e, hinput, -, hD⟩⟩ <;>
    have h' := e.symm.trans h
  · cases h'
    exact .check (.inl rfl)
  · cases h'
    exact .check (.inr rfl)
  · cases h'
  · obtain ⟨hpad, rfl⟩ := State.skipPadding_halted h' hs ht
    by_cases hadv : s.params.abs4 = .aligned
    · obtain ⟨hend, hlen⟩ := (s.abs4DataEnd_and_abs4Pad n.toNat).2.2 hadv
      obtain rfl : S' = s.S := hinput (by rw [hadv]; decide)
      rw [hend, hlen] at hpad
      rw [hend]
      exact .rle4Padding hadv hpad hD
    · cases (State.canRead_mono hr (State.abs4Pad_inside hadv n.toNat)).symm.trans hpad

/-- Everything a command that halts can leave. -/
theorem exec_halted {i : Instr} (h : exec i s = .next t) : s.Halted i t := by
  cases i with
  | rle8Run count v => exact execRle8Run_halted hs ht h
  | rle8Eol => exact State.endOfLine_halted hs ht h
  | rle8Eob => cases h; exact .endOfBitmap (.inl rfl)
  | rle8Delta => exact State.delta_halted hs ht h
  | rle8Abs n => exact execRle8Abs_halted hs ht h
  | rle4Run count v => exact execRle4Run_halted hs ht h
  | rle4Eol => exact State.endOfLine_halted hs ht h
  | rle4Eob => cases h; exact .endOfBitmap (.inr rfl)
  | rle4Delta => exact State.delta_halted hs ht h
  | rle4Abs n => exact execRle4Abs_halted hs ht h

end

/-- Everything a halting step can leave: what the failed fetch leaves, or what the command at `p` leaves. -/
theorem step_halted {s t : State} (h : step s = .next t) (ht : t.status = .done) :
    (∃ c, s.fetch = .halted c ∧ t = s.halt c) ∨
      ∃ i b0 b1, s.fetch = .head b0 b1 ∧ s.headInstr = some i ∧ s.Halted i t := by
  obtain ⟨hs, hfetch | ⟨b0, b1, m, hf, hm, he⟩⟩ := step_cases h
  · exact .inl hfetch
  · exact .inr ⟨_, b0, b1, hf, (State.headInstr_of_fetch hf hm).1, exec_halted hs ht he⟩

/-- The two causes that a fetch can name (R62). -/
theorem State.fetch_halted_cause {s : State} {c : Cause} (hf : s.fetch = .halted c) : c = .oobIn ∨ c = .outFull := by
  rcases s.fetch_cases with ⟨e, -⟩ | ⟨e, -⟩ | ⟨e, -⟩ | ⟨_, _, e, -⟩ <;> cases e.symm.trans hf
  · exact .inl rfl
  · exact .inr rfl

/-- Settles O36: by what a halting step can leave; after the copy of an RLE4 ABS the output cursor is the nibble address that
its pixels end at. -/
theorem haltsArePrecise : Obligations.HaltsArePrecise := by
  intro s t h ht
  rcases step_halted h ht with ⟨c, hf, rfl⟩ | ⟨i, b0, b1, -, hi, hhalt⟩
  · exact .inr (.inl ⟨rfl, (State.fetch_halted_cause hf).imp id .inr⟩)
  · cases hhalt with
    | endOfBitmap heob => exact .inl ⟨rfl, by simpa only [hi, Option.some.injEq] using heob⟩
    | check hc => exact .inr (.inl ⟨rfl, hc.imp id .inl⟩)
    | rle8Padding hpad hD => exact .inr (.inr ⟨rfl, .inl ⟨_, hi, rfl, hpad, rfl, hD⟩⟩)
    | rle4Padding hadv hpad hD =>
      exact .inr (.inr ⟨rfl, .inr ⟨_, hi, hadv, rfl, hpad, rfl, npos_ofParity _, hD⟩⟩)

/-- A command halts with `EOB` exactly when it is an EOB (R93, R94). -/
theorem State.Halted.cause_eq_eob_iff {s t : State} {i : Instr} (h : s.Halted i t) :
    t.cause = .eob ↔ (i = .rle8Eob ∨ i = .rle4Eob) ∧ t.p = s.p + 2 := by
  cases h with
  | endOfBitmap hi => exact ⟨fun _ => ⟨hi, rfl⟩, fun _ => rfl⟩
  | check hc => rcases hc with rfl | rfl <;> simp
  | rle8Padding => simp
  | rle4Padding => simp

/-- A command that halts names a cause, and never the one of a full output, which the fetch alone names (R93). -/
theorem State.Halted.cause_ne {s t : State} {i : Instr} (h : s.Halted i t) :
    t.cause ≠ .none ∧ t.cause ≠ .outFull := by
  cases h with
  | endOfBitmap => simp
  | check hc => rcases hc with rfl | rfl <;> simp
  | rle8Padding => simp
  | rle4Padding => simp

/-- The fetch halts with `OUT_FULL` exactly when its second test is reached and fails (R62). -/
theorem State.fetch_eq_outFull_iff (s : State) :
    s.fetch = .halted .outFull ↔ s.params.haltOutFull = true ∧ s.p < s.inLen.toNat ∧ s.outLen ≤ s.d := by
  refine ⟨fun hf => ?_, fun ⟨hfull, hp, hd⟩ => State.fetch_of_output_full hp hfull (Nat.not_lt.2 hd)⟩
  rcases s.fetch_cases with ⟨e, -⟩ | ⟨-, hp, hfull, hd⟩ | ⟨e, -⟩ | ⟨_, _, e, -⟩
  · cases e.symm.trans hf
  · exact ⟨hfull, hp, Nat.not_lt.1 hd⟩
  · cases e.symm.trans hf
  · cases e.symm.trans hf

/-- Settles O37: a halt of the fetch leaves `p` and names its own cause, and a command's halt is an EOB's or names another. -/
theorem haltCauses : Obligations.HaltCauses := by
  intro s t h ht
  rw [← s.fetch_eq_outFull_iff]
  rcases step_halted h ht with ⟨c, hf, rfl⟩ | ⟨i, b0, b1, hf, hi, hhalt⟩
  · exact ⟨State.cause_of_fetch_halted hf, by simp [State.cause_ne_eob_of_fetch_halted hf], by simp [hf]⟩
  · obtain ⟨hnone, hfull⟩ := hhalt.cause_ne
    exact ⟨hnone, by simpa only [hi, Option.some.injEq] using hhalt.cause_eq_eob_iff, by simp [hf, hfull]⟩

/-! ### How long a halt stays (R97) -/

/-- A host command other than START and reset leaves the result of a run. -/
theorem hostExec_keeps_result {s t : State} {c : HostCmd} (hstart : c ≠ .start) (hreset : c ≠ .reset)
    (h : hostExec c s = .next t) : t.status = s.status ∧ t.cause = s.cause ∧ t.D = s.D := by
  cases c with
  | reset => contradiction
  | start => contradiction
  | writeMode | writeWidth | writeHeight | writePitch | writeInLen =>
    obtain ⟨-, rfl⟩ := State.hostWrite_cases h
    exact ⟨rfl, rfl, rfl⟩
  | writeInput =>
    simp only [hostExec] at h
    split at h
    · obtain ⟨-, rfl⟩ := State.hostWrite_cases h
      exact ⟨rfl, rfl, rfl⟩
    · cases h

/-- Settles O48: a halted block does not run, and the host's writes go to other registers. -/
theorem haltIsSticky : Obligations.HaltIsSticky := by
  intro s hs
  refine ⟨fun t h => ?_, fun c t hstart hreset h => hs ▸ hostExec_keeps_result hstart hreset h⟩
  cases (noMoveUnlessRunning s (by rw [hs]; decide)).symm.trans h

end Sys2Proof.Machine

/-! The statements of 70_reset_and_hazards.md: what reset leaves (R106), and that a run depends on its inputs only (R115). -/

namespace Sys2Proof.Machine

/-! ### Reset (R106) -/

/-- Settles O47: reset answers `State.resetOf`, whose `STATUS` is `IDLE`, and an idle block has no move. -/
theorem resetEffect : Obligations.ResetEffect := by
  intro s
  refine ⟨State.resetOf s.params, rfl, rfl, rfl, rfl, fun u h => ?_⟩
  have hrefused := noMoveUnlessRunning (State.resetOf s.params) (by simp [State.resetOf])
  cases hrefused.symm.trans h

/-! ### A run depends on its inputs only (R115)

START overwrites all that it neither reads nor keeps as an input, so that blocks with equal inputs start with the same
stream, and each step keeps it the same. -/

section

variable {s1 s2 : State} (h : SameInputs s1 s2)
include h

theorem SameInputs.newRowBytes (m : Mode) : s2.newRowBytes m = s1.newRowBytes m := by
  obtain ⟨-, -, hwidth, -, hpitch, -, -⟩ := h
  simp only [State.newRowBytes, hwidth, hpitch]

theorem SameInputs.newOutLen (m : Mode) : s2.newOutLen m = s1.newOutLen m := by
  obtain ⟨-, -, -, hheight, -, -, -⟩ := id h
  simp only [State.newOutLen, h.newRowBytes, hheight]

theorem SameInputs.legalMode : s2.legalMode = s1.legalMode := by
  obtain ⟨hparams, hmode, -, -, -, hinLen, -⟩ := id h
  cases hm : Mode.ofCode s1.mode with
  | none => simp only [State.legalMode, hmode, hm]
  | some m =>
    rw [State.legalMode_of_ofCode hm, State.legalMode_of_ofCode (hmode ▸ hm), h.newOutLen, hparams, hinLen]

theorem SameInputs.started (m : Mode) : SameStream (s1.started m) (s2.started m) := by
  obtain ⟨hparams, hmode, hwidth, hheight, hpitch, hinLen, hS⟩ := id h
  refine ⟨?_, hS⟩
  simp only [State.started, h.newRowBytes, h.newOutLen, hparams, hmode, hwidth, hheight, hpitch, hinLen]

/-- Blocks with equal inputs that START moves run the same stream from then on, whatever they did before (R61, R67). -/
theorem SameInputs.start {t1 t2 : State} (h1 : s1.start = .next t1) (h2 : s2.start = .next t2) : SameStream t1 t2 := by
  obtain ⟨-, m, hm, rfl⟩ := State.start_cases h1
  obtain ⟨-, m', hm', rfl⟩ := State.start_cases h2
  obtain rfl : m = m' := Option.some.inj ((hm.symm.trans h.legalMode.symm).trans hm')
  exact h.started m

end

/-- A run of `k + 1` steps is a step and a run of `k` steps. -/
theorem core_run_succ_cases {s u : State} {k : Nat} (h : core.run (k + 1) s = .next u) :
    ∃ t, step s = .next t ∧ core.run k t = .next u := by
  cases hs : core.step s with
  | next t => exact ⟨t, hs, by simpa only [Host.Core.run, hs] using h⟩
  | fault f => simp only [Host.Core.run, hs, reduceCtorEq] at h
  | refused r => simp only [Host.Core.run, hs, reduceCtorEq] at h

/-- What `S` holds beyond `IN_LEN` cannot influence a run (R22, R108). -/
theorem SameStream.run {s1 s2 u1 : State} (h : SameStream s1 s2) {k : Nat} (h1 : core.run k s1 = .next u1) :
    ∃ u2, core.run k s2 = .next u2 ∧ SameStream u1 u2 := by
  induction k generalizing s1 s2 with
  | zero => cases h1; exact ⟨s2, rfl, h⟩
  | succ k ih =>
    obtain ⟨t1, hstep1, hrun1⟩ := core_run_succ_cases h1
    obtain ⟨t2, hstep2, ht⟩ := bytesBeyondTheStreamDoNotMatter s1 s2 t1 h hstep1
    obtain ⟨u2, hrun2, hu⟩ := ih ht hrun1
    exact ⟨u2, (core_run_succ hstep2 k).trans hrun2, hu⟩

/-- Settles O45: START leaves the two blocks with the same stream, and a run keeps it the same. -/
theorem runDependsOnlyOnItsInputs : Obligations.RunDependsOnlyOnItsInputs :=
  fun _ _ _ _ h h1 h2 _ _ hrun => (h.start h1 h2).run hrun

end Sys2Proof.Machine
